-- ==== Sys2Proof/Word.lean ====
section
/-! DEFINITION. Word sizes of the LS-8 engine: bytes, the 9-bit program counter, register indices (R6, R7, R21, R25). -/

namespace Sys2Proof

/-- A register value, memory cell, opcode, operand or immediate: 8 bits, read as an unsigned natural (R6, R7). -/
abbrev Byte := BitVec 8

/-- The program counter and HALT_PC: 9 bits (R25, R32). -/
abbrev PcWord := BitVec 9

/-- HALT_INFO: 10 bits, two's complement (R32). -/
abbrev InfoWord := BitVec 10

/-- A register index 0 to 7 (R21). -/
abbrev Reg := Fin 8

/-- R7 is the stack pointer (R23). -/
abbrev SP : Reg := 7

/-- The operand byte that names a register: the whole byte is the index (R62). -/
def Reg.byte (r : Reg) : Byte := BitVec.ofNat 8 r.val

end Sys2Proof
end

