-- ==== Sys2Proof/Config.lean ====
section
/-! DEFINITION. The implementation parameters the spec leaves open (R6; 92_eei_decisions.md, "Parameters left open").
`MEM_INIT`, the fourth of them, is a launch input: an argument of `Machine.launch`. -/

namespace Sys2Proof

/-- What a prefetch past address 255 does (R83, D5). -/
inductive PrefetchOor where
  /-- The prefetch faults with OUT_OF_RANGE_ADDRESS. -/
  | fault
  /-- The prefetch yields no byte; a fault only if the instruction uses it. -/
  | ignore
  deriving DecidableEq, Repr

/-- The configuration of one engine, fixed for the whole run (R6, R20, R140). -/
structure Config where
  /-- `SP_INIT`: the stack pointer's reset value (R6, R38, D3). -/
  spInit : Byte
  /-- `PREFETCH_OOR` (R6, R83, D5). -/
  prefetchOor : PrefetchOor
  /-- `EXT_ALU`: whether the ten extension instructions decode (R2, R140, D13). -/
  extAlu : Bool
  deriving DecidableEq, Repr

/-- The defaults of R6. The default `SP_INIT` is marked by the spec as general knowledge (A2). -/
def Config.default : Config := { spInit := 0xF4#8, prefetchOor := .fault, extAlu := false }

end Sys2Proof
end

