-- ==== Sys2Proof/Machine/State.lean ====
section
/-! DEFINITION. The engine's state (R20), its value after reset (R38), and the two ways a step can fail to give a next state. -/

namespace Sys2Proof.Machine

/-- The FSM state (R27, R80). -/
inductive Fsm where
  | running
  | halted
  deriving DecidableEq, Repr

/-- HALT_CAUSE (R32). Code 7 is reserved and never written, so it has no constructor (A11). -/
inductive HaltCause where
  /-- 0: still running. -/
  | none
  /-- 1: HLT executed. -/
  | hlt
  /-- 2. -/
  | unknownOpcode
  /-- 3. -/
  | outOfRangeAddress
  /-- 4. -/
  | outOfRangeRegister
  /-- 5: only when `EXT_ALU = true`. -/
  | divideByZero
  /-- 6: unreachable; kept so that the taxonomy is complete (R112). -/
  | unsupportedAluOperation
  deriving DecidableEq, Repr

/-- `Fault(cause, info)` of R9 and R88: what an engine fault records. -/
structure EngineFault where
  cause : HaltCause
  info : Int
  deriving DecidableEq, Repr

/-- Memory as the list of the cells that differ from what an unlisted address reads as (`Memory.unlisted`), by rising
address (`Memory.wf`). -/
abbrev Memory := List Host.Cell

/-- The state of R20. `cfg` is the model's own field: the configuration, which no step changes (A1). -/
structure State where
  /-- R27, R31. -/
  fsm : Fsm
  /-- R25, R30. -/
  pc : PcWord
  /-- R0 to R7; `x[7]` is the stack pointer (R21, R23). -/
  x : Vector Byte 8
  /-- R36. -/
  mem : Memory
  /-- The flag register `0b00000LGE` (R34). -/
  fl : Byte
  /-- R32. -/
  haltCause : HaltCause
  /-- R32. -/
  haltPc : PcWord
  /-- R32. -/
  haltInfo : InfoWord
  /-- The output trace, oldest value first (R33). -/
  out : List Byte
  /-- `SP_INIT`, `PREFETCH_OOR`, `EXT_ALU`: a parameter of the step, not state of the spec (R20). -/
  cfg : Config
  deriving DecidableEq, Repr

/-- Why a step gives no next state. The engine's own faults are NOT here: each is a next state with the halt record
written (R88, A6). -/
inductive Fault where
  /-- Raised by `step` when the FSM is HALTED: "In HALTED the FSM takes no step" (R90). Safe: the model stops where the
  hardware stops (A5). -/
  | halted
  deriving DecidableEq, Repr

/-- Why an instruction has no meaning. -/
inductive Refusal where
  /-- Raised by an arm of `exec` whose instruction has no meaning yet; no arm does. Safe: the model stops. -/
  | notModelled (mnemonic : String)
  deriving DecidableEq, Repr

/-- Every piece of state after reset, before the load, in a given configuration (R38, R190). Nothing is listed in memory (A3). -/
def State.resetWith (cfg : Config) : State :=
  { fsm := .running
    pc := 0
    x := #v[0, 0, 0, 0, 0, 0, 0, cfg.spInit]
    mem := []
    fl := 0
    haltCause := .none
    haltPc := 0
    haltInfo := 0
    out := []
    cfg := cfg }

/-- The machine right after reset in the default configuration (R6, R38). -/
def State.reset : State := State.resetWith Config.default

end Sys2Proof.Machine
end

