-- ==== Sys2Proof/Machine/Ops.lean ====
section
/-! DEFINITION. The named operations every instruction is built from: memory (R41, R42), registers (R21 to R23), the PC
(R87), the output trace (R33), the stack pointer's range check (R121), halting (R100) and taking a fault (R88). -/

namespace Sys2Proof.Machine

/-! ### Memory -/

/-- What a cell that memory does not list reads as: `MEM_INIT` of `State.reset` (DESIGN CHOICE, A3). -/
def Memory.unlisted (_addr : Nat) : Byte := 0

/-- The canonical form: addresses strictly rising, all below 256 (R36), and no entry that an unlisted cell would read as. -/
abbrev Memory.wf (m : Memory) : Prop :=
  m.Pairwise (fun c d => c.1 < d.1) ∧ ∀ c ∈ m, c.1 < 256 ∧ c.2 ≠ Memory.unlisted c.1

/-- The byte a cell holds. -/
def Memory.read : Memory → Nat → Byte
  | [], a => Memory.unlisted a
  | c :: m, a => if c.1 = a then c.2 else Memory.read m a

/-- What stands in the list for a cell of value `v`: nothing where an unlisted cell reads as `v`. -/
def Memory.entry (a : Nat) (v : Byte) : Memory := if v = Memory.unlisted a then [] else [(a, v)]

/-- Setting one cell, in the canonical form. -/
def Memory.write : Memory → Nat → Byte → Memory
  | [], a, v => Memory.entry a v
  | c :: m, a, v =>
    if a < c.1 then Memory.entry a v ++ c :: m
    else if a = c.1 then Memory.entry a v ++ m
    else c :: Memory.write m a v

/-- Setting consecutive cells from an address on. -/
def Memory.writeBytes : Memory → Nat → List Byte → Memory
  | m, _, [] => m
  | m, a, v :: vs => Memory.writeBytes (m.write a v) (a + 1) vs

/-- The memory whose 256 cells hold `f 0` to `f 255`. -/
def Memory.ofFun (f : Nat → Byte) : Memory := (List.range 256).flatMap fun a => Memory.entry a (f a)

/-- `s` with another memory. -/
def State.setMem (s : State) (m : Memory) : State := { s with mem := m }

/-- `MemRead(addr, 1)` (R41). -/
def State.memRead (s : State) (addr : Nat) : Except EngineFault Byte :=
  if addr ≤ 255 then .ok (s.mem.read addr) else .error ⟨.outOfRangeAddress, addr⟩

/-- `MemWrite(addr, 1, v)` (R42). -/
def State.memWrite (s : State) (addr : Nat) (v : Byte) : Except EngineFault State :=
  if addr ≤ 255 then .ok (s.setMem (s.mem.write addr v)) else .error ⟨.outOfRangeAddress, addr⟩

/-! ### Registers, PC, flags, output -/

/-- Read `x[r]` (R9). -/
def State.readReg (s : State) (r : Reg) : Byte := s.x[r.val]

/-- `x[r] <- v` (R9). No register is hardwired or read-only (R22). -/
def State.writeReg (s : State) (r : Reg) (v : Byte) : State := { s with x := s.x.set r.val v }

/-- `pc <- target` (R9). -/
def State.setPc (s : State) (target : PcWord) : State := { s with pc := target }

/-- Phase 5 for an instruction that does not set the PC: `pc <- pc + len` (R87). -/
def State.advance (s : State) (len : Nat) : State := s.setPc (s.pc + BitVec.ofNat 9 len)

/-- `fl <- v` (R9). -/
def State.setFl (s : State) (v : Byte) : State := { s with fl := v }

/-- `emit(v)`: append to the output trace (R9, R33). -/
def State.emit (s : State) (v : Byte) : State := { s with out := s.out ++ [v] }

/-! ### The address multiplexer (R44) -/

/-- The five sources a memory access takes its address from (R44). -/
inductive AddressSource where
  /-- Opcode fetch. -/
  | pc
  /-- First operand prefetch. -/
  | pcPlus1
  /-- Second operand prefetch. -/
  | pcPlus2
  /-- PUSH and CALL: the decremented stack pointer. -/
  | spMinus1
  /-- POP and RET. -/
  | sp
  deriving DecidableEq, Repr

/-- The address a source gives (R44). The adders never wrap, so an address above 255 reaches the range check as itself. The
source `spMinus1` is selected only after the check that `x[7]` is not 0 (R121). -/
def State.address (s : State) : AddressSource → Nat
  | .pc => s.pc.toNat
  | .pcPlus1 => s.pc.toNat + 1
  | .pcPlus2 => s.pc.toNat + 2
  | .spMinus1 => (s.readReg SP).toNat - 1
  | .sp => (s.readReg SP).toNat

/-! ### The stack pointer's range (R121) -/

/-- The decremented stack pointer; a decrement of 0 faults with info -1 (R121). -/
def decSp (sp : Byte) : Except EngineFault Byte :=
  if sp = 0 then .error ⟨.outOfRangeAddress, -1⟩ else .ok (sp - 1)

/-- The incremented stack pointer; an increment to 256 faults with info 256 (R121). -/
def incSp (sp : Byte) : Except EngineFault Byte :=
  if sp.toNat + 1 = 256 then .error ⟨.outOfRangeAddress, 256⟩ else .ok (sp + 1)

/-! ### Halting, and taking a fault -/

/-- Halting with a cause and an info: the halt record is written, HALT_PC with the current PC (R32). -/
def State.halt (s : State) (cause : HaltCause) (info : Int) : State :=
  { s with fsm := .halted, haltCause := cause, haltPc := s.pc, haltInfo := BitVec.ofInt 10 info }

/-- Taking a fault, the engine's whole "trap entry" (R88, R173), on the state at the start of the step: the halt record is
written, everything else keeps its value. There is no vector, no handler and no return from it (R173, R174): nothing but
a new launch leaves HALTED (R90). -/
def State.raiseFault (s : State) (f : EngineFault) : State := s.halt f.cause f.info

/-- The outcome of an instruction that either has its effect or raises a fault. Every check comes before the first write
(R86), so a fault is taken on the state `s` at the start of the step. -/
def State.complete (s : State) : Except EngineFault State → Host.Outcome State Fault Refusal
  | .ok t => .next t
  | .error f => .next (s.raiseFault f)

end Sys2Proof.Machine
end

