-- ==== Sys2Proof/Machine/Operands.lean ====
section
/-! DEFINITION. The operand forms of R61 and R62: none (Z), one register (R), a register and an immediate (RI), two
registers (RR). -/

namespace Sys2Proof.Machine

/-- The register an operand byte names; a byte above 7 faults with the byte as info (R62, R85 item 2). The byte is not masked. -/
def regOperand (b : Byte) : Except EngineFault Reg :=
  if h : b.toNat < 8 then .ok ⟨b.toNat, h⟩ else .error ⟨.outOfRangeRegister, b.toNat⟩

/-- The two register operands of format RR, byte 1 checked first (R85, R89 item 5). -/
def regOperands2 (a b : Byte) : Except EngineFault (Reg × Reg) := do
  let ra ← regOperand a
  let rb ← regOperand b
  pure (ra, rb)

/-- The divisor of DIV and MOD: zero faults with the divisor's register index as info (R143, R144). -/
def State.divisor (s : State) (rb : Reg) : Except EngineFault Byte :=
  if s.readReg rb = 0 then .error ⟨.divideByZero, rb.val⟩ else .ok (s.readReg rb)

/-- CALL's return address `pc + 2`; one that does not fit in a byte faults with itself as info (R124). -/
def State.returnAddress (s : State) : Except EngineFault Byte :=
  let ret := s.pc.toNat + 2
  if 255 < ret then .error ⟨.outOfRangeAddress, ret⟩ else .ok (BitVec.ofNat 8 ret)

end Sys2Proof.Machine
end

