-- ==== Sys2Proof/Machine/Alu.lean ====
section
/-! DEFINITION. The ALU's functions and its register-to-register form (R110 to R113), with its base instructions ADD and
MUL (R114, R115). -/

namespace Sys2Proof.Machine

/-- `trunc8(v) = v mod 256` (R8). -/
def trunc8 (v : Nat) : Byte := BitVec.ofNat 8 v

/-- R114. -/
def aluAdd (va vb : Byte) : Byte := trunc8 (va.toNat + vb.toNat)

/-- R115. -/
def aluMul (va vb : Byte) : Byte := trunc8 (va.toNat * vb.toNat)

/-- R142: an integer difference modulo 256. -/
def aluSub (va vb : Byte) : Byte := BitVec.ofInt 8 ((va.toNat : Int) - (vb.toNat : Int))

/-- R143, for a nonzero divisor. -/
def aluDiv (va vb : Byte) : Byte := trunc8 (va.toNat / vb.toNat)

/-- R144, for a nonzero divisor. -/
def aluMod (va vb : Byte) : Byte := trunc8 (va.toNat % vb.toNat)

/-- R146. -/
def aluAnd (va vb : Byte) : Byte := va &&& vb

/-- R147. -/
def aluOr (va vb : Byte) : Byte := va ||| vb

/-- R148. -/
def aluXor (va vb : Byte) : Byte := va ^^^ vb

/-- R149. -/
def aluNot (va : Byte) : Byte := ~~~va

/-- R150: a shift on naturals, then the low 8 bits; the count is not masked. -/
def aluShl (va vb : Byte) : Byte := trunc8 (va.toNat <<< vb.toNat)

/-- R151: a logical shift; the count is not masked. -/
def aluShr (va vb : Byte) : Byte := trunc8 (va.toNat >>> vb.toNat)

/-- The ALU's form `apply(operation, dest, src)` in format RR: both operands are read, then `x[dest]` is written (R110, R113). -/
def aluApply (f : Byte → Byte → Byte) (a b : Byte) (s : State) : Host.Outcome State Fault Refusal :=
  s.complete do
    let (ra, rb) ← regOperands2 a b
    pure ((s.writeReg ra (f (s.readReg ra) (s.readReg rb))).advance 3)

/-- ADD (R114): `x[a] <- trunc8(x[a] + x[b])`. -/
def execAdd (a b : Byte) (s : State) : Host.Outcome State Fault Refusal := aluApply aluAdd a b s

/-- MUL (R115): `x[a] <- trunc8(x[a] * x[b])`. -/
def execMul (a b : Byte) (s : State) : Host.Outcome State Fault Refusal := aluApply aluMul a b s

end Sys2Proof.Machine
end

