-- ==== Sys2Proof/Machine/Flags.lean ====
section
/-! DEFINITION. The flag register FL, `0b00000LGE`, and CMP's computation of it (R34, R145). Nothing else computes a flag (R141). -/

namespace Sys2Proof.Machine

/-- One flag bit. -/
def flagBit (p : Bool) : BitVec 1 := BitVec.ofBool p

/-- `zext_8(L ++ G ++ E)` of an unsigned comparison (R145). -/
def cmpFlags (va vb : Byte) : Byte :=
  let l := flagBit (decide (va.toNat < vb.toNat))
  let g := flagBit (decide (vb.toNat < va.toNat))
  let e := flagBit (decide (va.toNat = vb.toNat))
  BitVec.setWidth 8 (l ++ g ++ e)

/-- Flag E, bit 0 (R34). -/
def State.flagE (s : State) : Bool := s.fl.getLsbD 0

/-- Flag G, bit 1 (R34). -/
def State.flagG (s : State) : Bool := s.fl.getLsbD 1

/-- Flag L, bit 2 (R34). -/
def State.flagL (s : State) : Bool := s.fl.getLsbD 2

end Sys2Proof.Machine
end

