-- ==== Sys2Proof/Machine/AluExt.lean ====
section
/-! DEFINITION. The ten `EXT_ALU` instructions (44_alu_extension.md). They decode only when `EXT_ALU = true` (R140), so a
meaning does not test the option again. -/

namespace Sys2Proof.Machine

/-- SUB (R142). -/
def execSub (a b : Byte) (s : State) : Host.Outcome State Fault Refusal := aluApply aluSub a b s

/-- The divide form: format RR with the divisor checked before the write (R143, R144). -/
def aluDivide (f : Byte → Byte → Byte) (a b : Byte) (s : State) : Host.Outcome State Fault Refusal :=
  s.complete do
    let (ra, rb) ← regOperands2 a b
    let d ← s.divisor rb
    pure ((s.writeReg ra (f (s.readReg ra) d)).advance 3)

/-- DIV (R143). -/
def execDiv (a b : Byte) (s : State) : Host.Outcome State Fault Refusal := aluDivide aluDiv a b s

/-- MOD (R144). -/
def execMod (a b : Byte) (s : State) : Host.Outcome State Fault Refusal := aluDivide aluMod a b s

/-- CMP (R145): writes FL and no register. -/
def execCmp (a b : Byte) (s : State) : Host.Outcome State Fault Refusal :=
  s.complete do
    let (ra, rb) ← regOperands2 a b
    pure ((s.setFl (cmpFlags (s.readReg ra) (s.readReg rb))).advance 3)

/-- AND (R146). -/
def execAnd (a b : Byte) (s : State) : Host.Outcome State Fault Refusal := aluApply aluAnd a b s

/-- OR (R147). -/
def execOr (a b : Byte) (s : State) : Host.Outcome State Fault Refusal := aluApply aluOr a b s

/-- XOR (R148). -/
def execXor (a b : Byte) (s : State) : Host.Outcome State Fault Refusal := aluApply aluXor a b s

/-- NOT (R149): one operand. -/
def execNot (a : Byte) (s : State) : Host.Outcome State Fault Refusal :=
  s.complete do
    let r ← regOperand a
    pure ((s.writeReg r (aluNot (s.readReg r))).advance 2)

/-- SHL (R150). -/
def execShl (a b : Byte) (s : State) : Host.Outcome State Fault Refusal := aluApply aluShl a b s

/-- SHR (R151). -/
def execShr (a b : Byte) (s : State) : Host.Outcome State Fault Refusal := aluApply aluShr a b s

end Sys2Proof.Machine
end

