-- ==== Sys2Proof/Machine/Control.lean ====
section
/-! DEFINITION. HLT, LDI and PRN (41_control_and_output.md). -/

namespace Sys2Proof.Machine

/-- HLT (R100): the halt record takes the HLT's own address, then the PC advances by 1 (R87). -/
def execHlt (s : State) : Host.Outcome State Fault Refusal :=
  s.complete <| pure ((s.halt .hlt 0).advance 1)

/-- LDI (R101): `x[a] <- b`. -/
def execLdi (a b : Byte) (s : State) : Host.Outcome State Fault Refusal :=
  s.complete do
    let r ← regOperand a
    pure ((s.writeReg r b).advance 3)

/-- PRN (R102): `emit(x[a])`. -/
def execPrn (a : Byte) (s : State) : Host.Outcome State Fault Refusal :=
  s.complete do
    let r ← regOperand a
    pure ((s.emit (s.readReg r)).advance 2)

end Sys2Proof.Machine
end

