-- ==== Sys2Proof/Machine/Stack.lean ====
section
/-! DEFINITION. PUSH, POP, CALL and RET (43_stack_and_subroutine.md). Each follows its rule's pseudocode line by line; a later
line reads the state the earlier ones left (R86), which decides the cases where the operand is R7. -/

namespace Sys2Proof.Machine

/-- PUSH (R122): `x[a]` is read after the decrement. -/
def execPush (a : Byte) (s : State) : Host.Outcome State Fault Refusal :=
  s.complete do
    let r ← regOperand a
    let sp ← decSp (s.readReg SP)
    let s1 := s.writeReg SP sp
    let s2 ← s1.memWrite (s.address .spMinus1) (s1.readReg r)
    pure (s2.advance 2)

/-- POP (R123): the final stack pointer is checked before the first write. -/
def execPop (a : Byte) (s : State) : Host.Outcome State Fault Refusal :=
  s.complete do
    let r ← regOperand a
    let v ← s.memRead (s.address .sp)
    let newSp ← incSp (if r = SP then v else s.readReg SP)
    let s1 := s.writeReg r v
    pure ((s1.writeReg SP newSp).advance 2)

/-- CALL (R124): the target is read after the decrement, and the PC is not also advanced. -/
def execCall (a : Byte) (s : State) : Host.Outcome State Fault Refusal :=
  s.complete do
    let r ← regOperand a
    let sp ← decSp (s.readReg SP)
    let ret ← s.returnAddress
    let s1 := s.writeReg SP sp
    let s2 ← s1.memWrite (s.address .spMinus1) ret
    pure (s2.setPc ((s2.readReg r).setWidth 9))

/-- RET (R125): the PC is not also advanced. -/
def execRet (s : State) : Host.Outcome State Fault Refusal :=
  s.complete do
    let t ← s.memRead (s.address .sp)
    let newSp ← incSp (s.readReg SP)
    pure ((s.writeReg SP newSp).setPc (t.setWidth 9))

end Sys2Proof.Machine
end

