-- ==== Sys2Proof/Syntax.lean ====
section
/-! DEFINITION. The instructions: one constructor of `Instr` per row of spec/opcode_table.json (R64, R66). Operand bytes
are kept whole, because a register operand is a whole byte and a byte of 8 to 255 is an instruction that faults (R62). -/

namespace Sys2Proof

/-- The four formats of R61. -/
inductive Format where
  | Z
  | R
  | RI
  | RR
  deriving DecidableEq, Repr

/-- The rows of the opcode maps of R64 and R66, by mnemonic. -/
inductive Opcode where
  | hlt | ldi | prn | add | mul | push | pop | call | ret
  | sub | div | mod | cmp | and | or | xor | not | shl | shr
  deriving DecidableEq, Repr

/-- The rows of R66, which exist only when `EXT_ALU = true` (R140). -/
def Opcode.isExt : Opcode → Bool
  | .hlt | .ldi | .prn | .add | .mul | .push | .pop | .call | .ret => false
  | .sub | .div | .mod | .cmp | .and | .or | .xor | .not | .shl | .shr => true

/-- An instruction: "a transient decode result: one opcode byte plus zero, one, or two operand bytes" (R11).
Operands stand in encoding order, byte 1 then byte 2 (R61, R73). -/
inductive Instr where
  /-- R100. -/
  | hlt
  /-- R101. -/
  | ldi (reg imm8 : Byte)
  /-- R102. -/
  | prn (reg : Byte)
  /-- R114. -/
  | add (regA regB : Byte)
  /-- R115. -/
  | mul (regA regB : Byte)
  /-- R122. -/
  | push (reg : Byte)
  /-- R123. -/
  | pop (reg : Byte)
  /-- R124. -/
  | call (reg : Byte)
  /-- R125. -/
  | ret
  /-- R142. -/
  | sub (regA regB : Byte)
  /-- R143. -/
  | div (regA regB : Byte)
  /-- R144. -/
  | mod (regA regB : Byte)
  /-- R145. -/
  | cmp (regA regB : Byte)
  /-- R146. -/
  | and (regA regB : Byte)
  /-- R147. -/
  | or (regA regB : Byte)
  /-- R148. -/
  | xor (regA regB : Byte)
  /-- R149. -/
  | not (reg : Byte)
  /-- R150. -/
  | shl (regA regB : Byte)
  /-- R151. -/
  | shr (regA regB : Byte)
  deriving DecidableEq, Repr

/-- The row of the opcode map an instruction belongs to. -/
def Instr.opcode : Instr → Opcode
  | .hlt => .hlt
  | .ldi _ _ => .ldi
  | .prn _ => .prn
  | .add _ _ => .add
  | .mul _ _ => .mul
  | .push _ => .push
  | .pop _ => .pop
  | .call _ => .call
  | .ret => .ret
  | .sub _ _ => .sub
  | .div _ _ => .div
  | .mod _ _ => .mod
  | .cmp _ _ => .cmp
  | .and _ _ => .and
  | .or _ _ => .or
  | .xor _ _ => .xor
  | .not _ => .not
  | .shl _ _ => .shl
  | .shr _ _ => .shr

end Sys2Proof
end

