-- ==== Sys2Proof/Machine/Dispatch.lean ====
section
/-! DEFINITION. Phase 4 and 5 of the step (R81, R86): one arm per instruction. -/

namespace Sys2Proof.Machine

def exec (i : Instr) (s : State) : Host.Outcome State Fault Refusal :=
  match i with
  | .hlt => Sys2Proof.Machine.execHlt s
  | .ldi reg imm8 => Sys2Proof.Machine.execLdi reg imm8 s
  | .prn reg => Sys2Proof.Machine.execPrn reg s
  | .add regA regB => Sys2Proof.Machine.execAdd regA regB s
  | .mul regA regB => Sys2Proof.Machine.execMul regA regB s
  | .push reg => Sys2Proof.Machine.execPush reg s
  | .pop reg => Sys2Proof.Machine.execPop reg s
  | .call reg => Sys2Proof.Machine.execCall reg s
  | .ret => Sys2Proof.Machine.execRet s
  | .sub regA regB => Sys2Proof.Machine.execSub regA regB s
  | .div regA regB => Sys2Proof.Machine.execDiv regA regB s
  | .mod regA regB => Sys2Proof.Machine.execMod regA regB s
  | .cmp regA regB => Sys2Proof.Machine.execCmp regA regB s
  | .and regA regB => Sys2Proof.Machine.execAnd regA regB s
  | .or regA regB => Sys2Proof.Machine.execOr regA regB s
  | .xor regA regB => Sys2Proof.Machine.execXor regA regB s
  | .not reg => Sys2Proof.Machine.execNot reg s
  | .shl regA regB => Sys2Proof.Machine.execShl regA regB s
  | .shr regA regB => Sys2Proof.Machine.execShr regA regB s

end Sys2Proof.Machine
end

