-- ==== Sys2Proof/WellFormed.lean ====
section
/-! DEFINITION. Well-formed instructions: every register operand names one of R0 to R7 (R62), and an extension instruction
needs `EXT_ALU = true` (R140). The machine runs ill-formed ones too: the first kind faults (R85), the second never decodes (R67). -/

namespace Sys2Proof

/-- The register operands in the order they are checked: byte 1 for formats R, RI and RR, byte 2 for RR (R85).
LDI's byte 2 is an immediate and is none. -/
def Instr.regOperands : Instr → List Byte
  | .hlt | .ret => []
  | .ldi r _ => [r]
  | .prn r | .push r | .pop r | .call r | .not r => [r]
  | .add a b | .mul a b | .sub a b | .div a b | .mod a b | .cmp a b => [a, b]
  | .and a b | .or a b | .xor a b | .shl a b | .shr a b => [a, b]

/-- Every register operand is at most 7 (R62). -/
def Instr.regsInRange (i : Instr) : Bool := i.regOperands.all fun b => decide (b.toNat ≤ 7)

/-- The instruction exists in the configuration (R140). -/
def Instr.enabled (ext : Bool) (i : Instr) : Bool := ext || !i.opcode.isExt

/-- Well-formed under a value of `EXT_ALU`. -/
def Instr.wellFormed (ext : Bool) (i : Instr) : Bool := i.regsInRange && i.enabled ext

end Sys2Proof
end

