-- ==== Sys2Proof/Decode.lean ====
section
/-! DEFINITION. The opcode maps, the decoder as a total function (R69), and the encoder written from the same tables. -/

namespace Sys2Proof

/-- The opcode byte of every row (R64, R66). -/
def Opcode.byte : Opcode → Byte
  | .hlt => 0b00000001#8
  | .ldi => 0b10000010#8
  | .prn => 0b01000111#8
  | .add => 0b10100000#8
  | .mul => 0b10100010#8
  | .push => 0b01000101#8
  | .pop => 0b01000110#8
  | .call => 0b01010000#8
  | .ret => 0b00010001#8
  | .sub => 0b10100001#8
  | .div => 0b10100011#8
  | .mod => 0b10100100#8
  | .cmp => 0b10100111#8
  | .and => 0b10101000#8
  | .or => 0b10101010#8
  | .xor => 0b10101011#8
  | .not => 0b01101001#8
  | .shl => 0b10101100#8
  | .shr => 0b10101101#8

/-- The format of every row (R64, R66). -/
def Opcode.format : Opcode → Format
  | .hlt | .ret => .Z
  | .prn | .push | .pop | .call | .not => .R
  | .ldi => .RI
  | .add | .mul | .sub | .div | .mod | .cmp | .and | .or | .xor | .shl | .shr => .RR

/-- The byte length of each format (R61). -/
def Format.len : Format → Nat
  | .Z => 1
  | .R => 2
  | .RI => 3
  | .RR => 3

/-- The byte length `len` of a row (R64, R66). -/
def Opcode.len (c : Opcode) : Nat := c.format.len

/-- The nine rows of R64. -/
def baseOpcodes : List Opcode := [.hlt, .ldi, .prn, .add, .mul, .push, .pop, .call, .ret]

/-- The ten rows of R66. -/
def extOpcodes : List Opcode := [.sub, .div, .mod, .cmp, .and, .or, .xor, .not, .shl, .shr]

/-- The decoder of R69: a lookup keyed by the whole opcode byte, first in R64's map, then, under `EXT_ALU`, in R66's.
`none` is UNKNOWN. -/
def decodeOpcode (ext : Bool) (op : Byte) : Option Opcode :=
  match baseOpcodes.find? (fun c => c.byte == op) with
  | some c => some c
  | none => if ext then extOpcodes.find? (fun c => c.byte == op) else none

/-- The instruction of a row with its operand bytes; a format that has no byte 1 or no byte 2 ignores it (R61, R68). -/
def Opcode.build (c : Opcode) (a b : Byte) : Instr :=
  match c with
  | .hlt => .hlt
  | .ldi => .ldi a b
  | .prn => .prn a
  | .add => .add a b
  | .mul => .mul a b
  | .push => .push a
  | .pop => .pop a
  | .call => .call a
  | .ret => .ret
  | .sub => .sub a b
  | .div => .div a b
  | .mod => .mod a b
  | .cmp => .cmp a b
  | .and => .and a b
  | .or => .or a b
  | .xor => .xor a b
  | .not => .not a
  | .shl => .shl a b
  | .shr => .shr a b

/-- Why bytes are no instruction. -/
inductive DecodeError where
  /-- No byte at all. -/
  | noOpcode
  /-- The opcode byte has no row (R67). -/
  | unknownOpcode (op : Byte)
  /-- Operand byte `k` of the decoded instruction is missing: ⊥ in R85 item 1. -/
  | missingOperand (k : Nat)
  deriving DecidableEq, Repr

/-- Decoding one fetched opcode byte with the two prefetched bytes, each present or ⊥: R84, then R85 item 1.
Register operands are not checked here: byte 8 to 255 is not masked and faults when the instruction runs (R62, R85 item 2). -/
def decodeFetched (ext : Bool) (op : Byte) (a b : Option Byte) : Except DecodeError Instr :=
  match decodeOpcode ext op with
  | none => .error (.unknownOpcode op)
  | some c =>
    if 2 ≤ c.len ∧ a = none then .error (.missingOperand 1)
    else if 3 ≤ c.len ∧ b = none then .error (.missingOperand 2)
    else .ok (c.build (a.getD 0) (b.getD 0))

/-- Decoding a list of bytes, byte `k` standing at `pc + k` (R61). Total; what is no instruction is rejected by name. -/
def decode (ext : Bool) : List Byte → Except DecodeError Instr
  | [] => .error .noOpcode
  | op :: rest => decodeFetched ext op rest[0]? rest[1]?

/-- The operand bytes of an instruction, byte 1 then byte 2 (R61, R73). -/
def Instr.operands : Instr → List Byte
  | .hlt | .ret => []
  | .ldi r v => [r, v]
  | .prn r | .push r | .pop r | .call r | .not r => [r]
  | .add a b | .mul a b | .sub a b | .div a b | .mod a b | .cmp a b => [a, b]
  | .and a b | .or a b | .xor a b | .shl a b | .shr a b => [a, b]

/-- The bytes of an instruction at increasing addresses (R46, R61). -/
def encode (i : Instr) : List Byte := i.opcode.byte :: i.operands

/-- The byte length of an instruction (R60). -/
def Instr.len (i : Instr) : Nat := i.opcode.len

/-- The bytes of a table word: byte `k` is bits `8k+7` to `8k`, the first byte lowest, three bytes in all, and every bit
above `nbits` is 0. -/
def tableWordBytes (nbits w : Nat) : List Byte :=
  let v := w % 2 ^ nbits
  [BitVec.ofNat 8 v, BitVec.ofNat 8 (v / 256), BitVec.ofNat 8 (v / 65536)]

/-- The instruction the decoder reads from a table word. The table lists the extension's rows, so `EXT_ALU` is on (A8). -/
def decodeTableWord (nbits w : Nat) : Option Instr :=
  match decode true (tableWordBytes nbits w) with
  | .ok i => some i
  | .error _ => none

end Sys2Proof
end

