-- ==== Sys2Proof/Machine/Fetch.lean ====
section
/-! DEFINITION. Phases 1 to 3 of the step: opcode fetch (R82), operand prefetch (R83), decode (R84) and the check for missing
operand bytes (R85 item 1). Also the placing of a word at the fetch address. -/

namespace Sys2Proof.Machine

/-- The prefetch of an operand byte: past address 255 it faults or yields ⊥, by `PREFETCH_OOR` (R83). -/
def State.prefetch (s : State) (src : AddressSource) : Except EngineFault (Option Byte) :=
  let addr := s.address src
  if addr ≤ 255 then .ok (some (s.mem.read addr))
  else match s.cfg.prefetchOor with
    | .fault => .error ⟨.outOfRangeAddress, addr⟩
    | .ignore => .ok none

/-- The fault an undecodable fetch raises (R84, R85 item 1). `noOpcode` cannot arise: the opcode is always fetched first. -/
def State.decodeFault (s : State) : DecodeError → EngineFault
  | .noOpcode => ⟨.outOfRangeAddress, s.pc.toNat⟩
  | .unknownOpcode op => ⟨.unknownOpcode, op.toNat⟩
  | .missingOperand k => ⟨.outOfRangeAddress, (s.pc.toNat + k : Nat)⟩

/-- Phases 1 to 3 in the order of R89 items 1 to 4. Both prefetches happen whatever the opcode is (R83). -/
def State.fetch (s : State) : Except EngineFault Instr := do
  let op ← s.memRead (s.address .pc)
  let a ← s.prefetch .pcPlus1
  let b ← s.prefetch .pcPlus2
  match decodeFetched s.cfg.extAlu op a b with
  | .error e => .error (s.decodeFault e)
  | .ok i => .ok i

/-- `s` with bytes stored from an address on, those past address 255 left out. -/
def State.placeBytes (s : State) : Nat → List Byte → State
  | _, [] => s
  | a, v :: vs =>
    match s.memWrite a v with
    | .ok t => t.placeBytes (a + 1) vs
    | .error _ => s

/-- `s` with `EXT_ALU` on where `op` is an opcode of the extension, otherwise unchanged (A8). -/
def State.enableOpcode (s : State) (op : Byte) : State :=
  if extOpcodes.any (fun c => c.byte == op) then { s with cfg := { s.cfg with extAlu := true } } else s

/-- `s` with a table word stored at the PC, in a configuration that has its instruction (A8). -/
def State.placeTableWord (s : State) (nbits w : Nat) : State :=
  (s.enableOpcode (BitVec.ofNat 8 (w % 2 ^ nbits))).placeBytes s.pc.toNat (tableWordBytes nbits w)

end Sys2Proof.Machine
end

