-- ==== Sys2Proof/Machine/Step.lean ====
section
/-! DEFINITION. The step of the FSM (R81): it happens only in RUNNING (R90), fetches and decodes, and runs the instruction;
the first fault ends it (R88, R89). -/

namespace Sys2Proof.Machine

/-- One step: one whole instruction, or one fault (R81). -/
def step (s : State) : Host.Outcome State Fault Refusal :=
  match s.fsm with
  | .halted => .fault .halted
  | .running =>
    match s.fetch with
    | .error f => .next (s.raiseFault f)
    | .ok i => exec i s

/-- `s` with a table word where `step` fetches its next instruction (A8). -/
def State.withFetchWord (s : State) (nbits w : Nat) : State := s.placeTableWord nbits w

end Sys2Proof.Machine
end

