-- ==== Sys2Proof/Machine/Assembly.lean ====
section
/-! DEFINITION. The assembly spelling of R72: the canonical writer, and a reader. Text is a list of characters. Nothing of the
machine's execution rests on this file (D28). -/

namespace Sys2Proof.Machine

/-- The mnemonic in capitals (R64, R66, R72). -/
def mnemonic : Opcode → List Char
  | .hlt => ['H', 'L', 'T']
  | .ldi => ['L', 'D', 'I']
  | .prn => ['P', 'R', 'N']
  | .add => ['A', 'D', 'D']
  | .mul => ['M', 'U', 'L']
  | .push => ['P', 'U', 'S', 'H']
  | .pop => ['P', 'O', 'P']
  | .call => ['C', 'A', 'L', 'L']
  | .ret => ['R', 'E', 'T']
  | .sub => ['S', 'U', 'B']
  | .div => ['D', 'I', 'V']
  | .mod => ['M', 'O', 'D']
  | .cmp => ['C', 'M', 'P']
  | .and => ['A', 'N', 'D']
  | .or => ['O', 'R']
  | .xor => ['X', 'O', 'R']
  | .not => ['N', 'O', 'T']
  | .shl => ['S', 'H', 'L']
  | .shr => ['S', 'H', 'R']

/-- A register is written `R` plus its index (R72). DESIGN CHOICE (A10), safe: R72 gives no spelling for a byte of 8 to 255,
which names no register; the writer gives `R` plus its decimal value, a text `readRegName` refuses. -/
def spellReg (b : Byte) : List Char := 'R' :: Nat.toDigits 10 b.toNat

/-- An immediate: R72 allows decimal or hex, and the writer takes decimal (DESIGN CHOICE, A10, safe). -/
def spellImm (b : Byte) : List Char := Nat.toDigits 10 b.toNat

/-- The operands of a format in encoding order, separated by a comma (R61, R72). -/
def spellOperands (f : Format) (bytes : List Byte) : List Char :=
  match f, bytes with
  | .R, [r] => ' ' :: spellReg r
  | .RI, [r, v] => ' ' :: spellReg r ++ ',' :: spellImm v
  | .RR, [a, b] => ' ' :: spellReg a ++ ',' :: spellReg b
  | _, _ => []

/-- The canonical spelling (R72). -/
def spell (i : Instr) : List Char := mnemonic i.opcode ++ spellOperands i.opcode.format i.operands

/-- The value of a digit in a base up to 16; letters of either case (A10). -/
def digitValue (base : Nat) (c : Char) : Option Nat :=
  let v :=
    if '0' ≤ c ∧ c ≤ '9' then c.toNat - '0'.toNat
    else if 'a' ≤ c ∧ c ≤ 'f' then c.toNat - 'a'.toNat + 10
    else if 'A' ≤ c ∧ c ≤ 'F' then c.toNat - 'A'.toNat + 10
    else 16
  if v < base then some v else none

/-- The number that digits write; `none` for a character that is no digit. -/
def digitsValue (base : Nat) : Nat → List Char → Option Nat
  | acc, [] => some acc
  | acc, c :: cs =>
    match digitValue base c with
    | some d => digitsValue base (base * acc + d) cs
    | none => none

/-- Reading an immediate: decimal, or hex with `0x`, of value 0 to 255 (R63, R72). -/
def readImm (token : List Char) : Option Byte :=
  let value := match token with
    | [] => none
    | '0' :: 'x' :: [] => none
    | '0' :: 'x' :: ds => digitsValue 16 0 ds
    | ds => digitsValue 10 0 ds
  match value with
  | some n => if n < 256 then some (BitVec.ofNat 8 n) else none
  | none => none

/-- Reading a register: `R` plus its index 0 to 7 (R72). -/
def readRegName (token : List Char) : Option Byte :=
  match token with
  | ['R', c] =>
    match digitValue 8 c with
    | some d => some (BitVec.ofNat 8 d)
    | none => none
  | _ => none

/-- The token up to a space or a comma, and what follows it. -/
def nextToken (cs : List Char) : List Char × List Char := cs.span fun c => !(c == ' ' || c == ',')

/-- Skipping spaces. -/
def skipSpaces (cs : List Char) : List Char := cs.dropWhile (· == ' ')

/-- Between two operands: "a comma, spaces or both" (R72). -/
def skipSeparator (cs : List Char) : Option (List Char) :=
  match skipSpaces cs with
  | ',' :: rest => some (skipSpaces rest)
  | rest => if rest.length < cs.length then some rest else none

/-- The operands of a format, which must be the whole of the text but for spaces at its end (A10). -/
def readOperands (f : Format) (cs : List Char) : Option (Byte × Byte) :=
  let (t1, r1) := nextToken cs
  match f with
  | .Z => if cs = [] then some (0, 0) else none
  | .R => do
    let a ← readRegName t1
    if skipSpaces r1 = [] then some (a, 0) else none
  | .RI => do
    let a ← readRegName t1
    let r2 ← skipSeparator r1
    let (t2, r3) := nextToken r2
    let b ← readImm t2
    if skipSpaces r3 = [] then some (a, b) else none
  | .RR => do
    let a ← readRegName t1
    let r2 ← skipSeparator r1
    let (t2, r3) := nextToken r2
    let b ← readRegName t2
    if skipSpaces r3 = [] then some (a, b) else none

/-- The rows whose mnemonics exist in a configuration (R64, R66). -/
def opcodesOf (ext : Bool) : List Opcode := baseOpcodes ++ if ext then extOpcodes else []

/-- Reading one instruction. There are no pseudo-instructions (R72). -/
def readAsm (ext : Bool) (cs : List Char) : Option Instr := do
  let (m, rest) := cs.span fun c => !(c == ' ')
  let c ← (opcodesOf ext).find? fun c => mnemonic c == m
  let (a, b) ← readOperands c.format (skipSpaces rest)
  some (c.build a b)

end Sys2Proof.Machine
end

