-- ==== Sys2Proof/Machine/Image.lean ====
section
/-! DEFINITION. The program-image text (R71): one byte a line, eight binary digits with the most significant bit first, an
optional comment; blank and comment-only lines are skipped. Text is a list of characters. -/

namespace Sys2Proof.Machine

/-- Why the load is refused; the engine then never starts (R170, R193). -/
inductive LoadError where
  /-- MalformedProgramLine, with the line's number from 0 on (R71). -/
  | malformedLine (line : Nat)
  /-- The image is longer than 256 bytes (R193, D12). -/
  | imageTooLong (length : Nat)
  deriving DecidableEq, Repr

/-- White space inside a line (A9). -/
def isLineSpace (c : Char) : Bool := c == ' ' || c == '\t' || c == '\r'

/-- The value of a binary digit. -/
def binaryDigit (c : Char) : Option Nat :=
  if c = '0' then some 0 else if c = '1' then some 1 else none

/-- The number binary digits write, most significant first; `none` where a character is no binary digit. -/
def binaryValue : Nat → List Char → Option Nat
  | acc, [] => some acc
  | acc, c :: cs =>
    match binaryDigit c with
    | some d => binaryValue (2 * acc + d) cs
    | none => none

/-- The byte of an 8-character binary literal (R47, R71). -/
def parseByte (token : List Char) : Option Byte :=
  if token.length = 8 then (binaryValue 0 token).map (BitVec.ofNat 8) else none

/-- One line: `none` is a malformed one, `some none` one that gives no byte. The leading token ends at white space or `#`;
what follows it changes nothing (R71, A9). -/
def parseLine (line : List Char) : Option (Option Byte) :=
  let body := line.dropWhile isLineSpace
  match body with
  | [] => some none
  | c :: _ =>
    if c = '#' then some none
    else (parseByte (body.takeWhile fun d => !(isLineSpace d || d == '#'))).map some

/-- The lines of a text. -/
def splitLines : List Char → List (List Char)
  | [] => [[]]
  | c :: cs =>
    if c = '\n' then [] :: splitLines cs
    else match splitLines cs with
      | [] => [[c]]
      | l :: ls => (c :: l) :: ls

/-- The bytes of the lines in file order; a malformed line refuses the load (R71, R193), and the
first one is reported (DESIGN CHOICE, A15). -/
def parseLines : Nat → List (List Char) → Except LoadError (List Byte)
  | _, [] => .ok []
  | n, l :: ls =>
    match parseLine l with
    | none => .error (.malformedLine n)
    | some byte => do
      let rest ← parseLines (n + 1) ls
      pure (byte.toList ++ rest)

/-- The bytes of a program image (R71). -/
def parseImage (text : List Char) : Except LoadError (List Byte) := parseLines 0 (splitLines text)

/-- A byte as eight binary digits, bit 7 first (R47, R71). -/
def renderByte (b : Byte) : List Char :=
  (List.range 8).map fun k => if b.getLsbD (7 - k) then '1' else '0'

/-- A line of a program image as R71 writes it: a byte or none, then a comment or none. -/
def renderLine (byte : Option Byte) (comment : Option (List Char)) : List Char :=
  (byte.map renderByte).getD [] ++ (comment.map fun c => '#' :: c).getD []

/-- A program image, one byte a line (R71). -/
def renderImage (bytes : List Byte) : List Char := bytes.flatMap fun b => renderLine (some b) none ++ ['\n']

end Sys2Proof.Machine
end

