-- ==== Sys2Proof/Machine/Launch.lean ====
section
/-! DEFINITION. The host interface of R194: reset and load make a launch state (R190 to R193), output and halt status are
read from a state. -/

namespace Sys2Proof.Machine

/-- The load: `mem[i] <- image[i]` from address 0 on, refused when the image is longer than memory (R193). It writes memory
only (R191). -/
def State.load (s : State) (image : List Byte) : Except LoadError State :=
  if 256 < image.length then .error (.imageTooLong image.length)
  else .ok (s.setMem (s.mem.writeBytes 0 image))

/-- Reset with `MEM_INIT` as the contents of memory (R38, R190). -/
def resetMemInit (cfg : Config) (memInit : Nat → Byte) : State :=
  (State.resetWith cfg).setMem (Memory.ofFun memInit)

/-- A launch: reset, then the load (R191, R196). `memInit` is the launch input `MEM_INIT` (D11). -/
def launch (cfg : Config) (memInit : Nat → Byte) (image : List Byte) : Except LoadError State :=
  (resetMemInit cfg memInit).load image

/-- A launch from the text of a program image (R71, R193). The whole text is read before its length is checked, so a text that
has a malformed line and also gives more than 256 bytes is refused as malformed: R170 and R193 order neither error before the
other (DESIGN CHOICE, A15). -/
def launchText (cfg : Config) (memInit : Nat → Byte) (text : List Char) : Except LoadError State := do
  let image ← parseImage text
  launch cfg memInit image

/-- At most `k` steps of the FSM, until HALTED (R191, R195): the state they reach. -/
def State.run : Nat → State → State
  | 0, s => s
  | k + 1, s =>
    match step s with
    | .next t => t.run k
    | .fault _ => s
    | .refused _ => s

/-- The FSM bit of R31. -/
def Fsm.code : Fsm → BitVec 1
  | .running => 0
  | .halted => 1

/-- The HALT_CAUSE codes of R32. -/
def HaltCause.code : HaltCause → BitVec 3
  | .none => 0
  | .hlt => 1
  | .unknownOpcode => 2
  | .outOfRangeAddress => 3
  | .outOfRangeRegister => 4
  | .divideByZero => 5
  | .unsupportedAluOperation => 6

/-- HALT_INFO as the integer of R20. -/
def State.haltInfoInt (s : State) : Int := s.haltInfo.toInt

/-- The registers the host reads as halt status, by their bit layouts (R31, R32, R194). -/
structure HaltStatus where
  fsm : BitVec 1
  cause : BitVec 3
  pc : BitVec 9
  info : BitVec 10
  deriving DecidableEq, Repr

/-- Halt status: what the host may read at any time (R194). -/
def State.haltStatus (s : State) : HaltStatus :=
  { fsm := s.fsm.code, cause := s.haltCause.code, pc := s.haltPc, info := s.haltInfo }

/-- The host's rendering of the output: each value in unsigned decimal, one a line, in execution order (R33, R102, R194). -/
def State.printed (s : State) : List (List Char) := s.out.map fun v => Nat.toDigits 10 v.toNat

/-- A run has ended (R195). -/
def State.ended (s : State) : Bool := s.fsm == .halted

/-- A run has ended normally: no fault was recorded (R195, R196). -/
def State.endedNormally (s : State) : Bool := s.fsm == .halted && s.haltCause == .hlt

end Sys2Proof.Machine
end

