-- ==== Sys2Proof/Safety.lean ====
section
/-! DEFINITION. The words claims are stated in: what two states share, what a fault leaves, and the invariant of a run. -/

namespace Sys2Proof.Machine

/-- Every cell of memory reads as before. -/
def State.SameMemory (s t : State) : Prop := ∀ a, t.mem.read a = s.mem.read a

/-- Every cell but one reads as before. -/
def State.SameMemoryBut (s t : State) (addr : Nat) : Prop := ∀ a, a ≠ addr → t.mem.read a = s.mem.read a

/-- Every register outside `rs` is as before. -/
def State.SameRegsBut (s t : State) (rs : List Reg) : Prop := ∀ r, r ∉ rs → t.readReg r = s.readReg r

/-- The FSM state, the halt record and the configuration are as before. -/
structure State.SameControl (s t : State) : Prop where
  fsm : t.fsm = s.fsm
  haltCause : t.haltCause = s.haltCause
  haltPc : t.haltPc = s.haltPc
  haltInfo : t.haltInfo = s.haltInfo
  cfg : t.cfg = s.cfg

/-- `t` is `s` with the PC moved by `len` and, at most, the register `d` changed: memory, FL, the output trace, the FSM
state, the halt record and the configuration are as before. -/
structure State.WritesOnlyReg (s t : State) (d : Reg) (len : Nat) : Prop where
  pc : t.pc.toNat = s.pc.toNat + len
  regs : s.SameRegsBut t [d]
  mem : s.SameMemory t
  fl : t.fl = s.fl
  out : t.out = s.out
  control : s.SameControl t

/-- `t` is what a fault with a cause and an info leaves of `s`: the FSM is HALTED, the halt record holds the cause, the PC
and the info, and everything else is as before (R88). -/
structure State.FaultedFrom (s t : State) (cause : HaltCause) (info : Int) : Prop where
  fsm : t.fsm = .halted
  haltCause : t.haltCause = cause
  haltPc : t.haltPc = s.pc
  haltInfo : t.haltInfoInt = info
  pc : t.pc = s.pc
  regs : s.SameRegsBut t []
  mem : s.SameMemory t
  fl : t.fl = s.fl
  out : t.out = s.out
  cfg : t.cfg = s.cfg

/-- The halt record fits the FSM state: empty while RUNNING, and in HALTED one of the causes that can be written, with the
PC and the info its row gives (R32, R88, R100, R112, R170). -/
def State.RecordFits (s : State) : Prop :=
  match s.fsm, s.haltCause with
  | .running, .none => s.haltPc = 0 ∧ s.haltInfoInt = 0
  | .halted, .hlt => s.haltInfoInt = 0 ∧ s.pc.toNat = s.haltPc.toNat + 1
  | .halted, .unknownOpcode => s.haltPc = s.pc ∧ 0 ≤ s.haltInfoInt ∧ s.haltInfoInt ≤ 255
  | .halted, .outOfRangeAddress => s.haltPc = s.pc ∧ (s.haltInfoInt = -1 ∨ s.haltInfoInt = 256)
  | .halted, .outOfRangeRegister => s.haltPc = s.pc ∧ 8 ≤ s.haltInfoInt ∧ s.haltInfoInt ≤ 255
  | .halted, .divideByZero =>
      s.haltPc = s.pc ∧ 0 ≤ s.haltInfoInt ∧ s.haltInfoInt ≤ 7 ∧ s.cfg.extAlu = true
  | _, _ => False

/-- The invariant of a run. -/
structure State.Inv (s : State) : Prop where
  /-- Memory keeps its canonical form. -/
  mem : s.mem.wf
  /-- The PC is 0 to 256 (R25). -/
  pc : s.pc.toNat ≤ 256
  /-- FL is 0 or holds exactly one of L, G and E (R34, R145). -/
  fl : s.fl = 0 ∨ s.fl = 1 ∨ s.fl = 2 ∨ s.fl = 4
  /-- Without the extension FL stays at its reset value (R34). -/
  flAbsent : s.cfg.extAlu = false → s.fl = 0
  /-- The halt record fits the FSM state (R32, R170). -/
  record : s.RecordFits

/-- The bytes the fetch reads of the three at `pc`, `pc + 1` and `pc + 2`: those at addresses of memory (R82, R83). -/
def State.fetchedBytes (s : State) : List Byte :=
  (([0, 1, 2].map fun k => s.pc.toNat + k).filter fun a => decide (a ≤ 255)).map s.mem.read

end Sys2Proof.Machine
end

