-- ==== Sys2Proof/Certificates/Slice0/Obligations.lean ====
section
/-! DEFINITION. The statements for the provers. Each docstring names the rules of spec/ it rests on. A register operand is
written `Reg.byte r` with `r` any of R0 to R7, which covers every operand byte that names a register (R62); the bytes above
7 are the subject of `OperandChecks`. -/

open Sys2Proof Sys2Proof.Machine

/-! ### Encoding -/

/-- Words written out from the opcode maps (R64, R66, R73, W1): one or more of each family. -/
def Obligations.SampleWordsDecode : Prop :=
  decode false [0b10000010, 0b00000000, 0b00001000] = .ok (.ldi 0 8) ∧
  decode false [0b01000111, 0b00000000, 0b00000001] = .ok (.prn 0) ∧
  decode false [0b00000001] = .ok .hlt ∧
  decode false [0b10100010, 0b00000000, 0b00000001] = .ok (.mul 0 1) ∧
  decode false [0b01000101, 0b00000011] = .ok (.push 3) ∧
  decode false [0b00010001] = .ok .ret ∧
  decode true [0b10100011, 0b00000010, 0b00000101] = .ok (.div 2 5) ∧
  decode true [0b01101001, 0b00000111] = .ok (.not 7) ∧
  decode false [0b10100001, 0b00000000, 0b00000001] = .error (.unknownOpcode 0xA1)

/-- Decode and encode agree: every instruction that exists in the configuration, whatever its operand bytes and whatever
follows it in memory, is read back from its own bytes (R60, R61, R62, R63, R68, R73). -/
def Obligations.DecodeEncodeRoundTrip : Prop :=
  ∀ (ext : Bool) (i : Instr) (rest : List Byte), i.enabled ext = true → decode ext (encode i ++ rest) = .ok i

/-- Bytes that decode begin with the encoding of what they decode to, and it exists in the configuration: no two
encodings, no masked operand, no instruction of the absent extension (R62, R67, R69). -/
def Obligations.DecodedBytesAreTheEncoding : Prop :=
  ∀ (ext : Bool) (bytes : List Byte) (i : Instr), decode ext bytes = .ok i →
    i.enabled ext = true ∧ ∃ rest, bytes = encode i ++ rest

/-- The decoder is the lookup of R69 in the maps of R64 and R66: the byte, the format and the length of every row. -/
def Obligations.DecoderIsTheOpcodeMap : Prop :=
  ∀ (ext : Bool) (op : Byte) (c : Opcode), decodeOpcode ext op = some c ↔
    (op, c, c.format, c.len) ∈ ([
        (0x01, .hlt, .Z, 1), (0x82, .ldi, .RI, 3), (0x47, .prn, .R, 2), (0xA0, .add, .RR, 3), (0xA2, .mul, .RR, 3),
        (0x45, .push, .R, 2), (0x46, .pop, .R, 2), (0x50, .call, .R, 2),
        (0x11, .ret, .Z, 1)] : List (Byte × Opcode × Format × Nat)) ∨
    ext = true ∧ (op, c, c.format, c.len) ∈ ([
        (0xA1, .sub, .RR, 3), (0xA3, .div, .RR, 3), (0xA4, .mod, .RR, 3), (0xA7, .cmp, .RR, 3), (0xA8, .and, .RR, 3),
        (0xAA, .or, .RR, 3), (0xAB, .xor, .RR, 3), (0x69, .not, .R, 2), (0xAC, .shl, .RR, 3),
        (0xAD, .shr, .RR, 3)] : List (Byte × Opcode × Format × Nat))

/-- The opcode alone decides the length (R60), and the field structure of the two maps (R65): bits 7:6 are the number of
operand bytes, bit 5 marks the ALU's instructions, bit 4 those that set the PC. -/
def Obligations.LengthAndFieldStructure : Prop :=
  ∀ i : Instr, (encode i).length = i.opcode.len ∧ i.opcode.byte.toNat / 64 + 1 = (encode i).length ∧
    (i.opcode.byte.getLsbD 5 = true ↔ i.opcode ∈ [Opcode.add, .mul, .sub, .div, .mod, .cmp, .and, .or, .xor, .not, .shl, .shr]) ∧
    (i.opcode.byte.getLsbD 4 = true ↔ i.opcode ∈ [Opcode.call, .ret])

/-- A well-formed instruction is read back from its canonical spelling (R72). -/
def Obligations.AssemblyRoundTrip : Prop :=
  ∀ (ext : Bool) (i : Instr), i.wellFormed ext = true → readAsm ext (spell i) = some i

/-- The text of a program image (R71): a line is a byte, most significant bit first, or none, then an optional comment. The
bytes are read in file order, and blank and comment-only lines are skipped. -/
def Obligations.ImageTextIsRead : Prop :=
  ∀ lines : List (Option Byte × Option (List Char)),
    (∀ l ∈ lines, ∀ c ∈ l.2.getD [], c ≠ '\n') →
    parseImage (lines.flatMap fun l => renderLine l.1 l.2 ++ ['\n']) = .ok (lines.filterMap fun l => l.1)

/-! ### The step -/

/-- A step runs the decoded instruction: where the opcode address and, unless `PREFETCH_OOR = ignore`, both prefetch addresses
are in memory, and the fetched bytes decode to `i`, the step is `exec i` (R81 to R86). `exec` includes the PC update. -/
def Obligations.StepExecutesDecodedInstruction : Prop :=
  ∀ (s : State) (i : Instr), s.fsm = .running → s.pc.toNat ≤ 255 →
    s.pc.toNat ≤ 253 ∨ s.cfg.prefetchOor = .ignore →
    decode s.cfg.extAlu s.fetchedBytes = .ok i → step s = exec i s

/-- An opcode fetch from outside memory faults (R82; R81 for a PC above 256). -/
def Obligations.FetchBeyondMemoryFaults : Prop :=
  ∀ s : State, s.fsm = .running → 256 ≤ s.pc.toNat →
    ∃ t, step s = .next t ∧ s.FaultedFrom t .outOfRangeAddress s.pc.toNat

/-- The two prefetches (R83). Under `fault`, an opcode at 254 or 255 faults with info 256, whatever it is. Under `ignore` such an
instruction runs where every byte it uses is in memory, and faults where it uses one past address 255. -/
def Obligations.PrefetchAtTheTopOfMemory : Prop :=
  ∀ s : State, s.fsm = .running → 254 ≤ s.pc.toNat → s.pc.toNat ≤ 255 →
    (s.cfg.prefetchOor = .fault → ∃ t, step s = .next t ∧ s.FaultedFrom t .outOfRangeAddress 256) ∧
    (s.cfg.prefetchOor = .ignore → ∀ c, decodeOpcode s.cfg.extAlu (s.mem.read s.pc.toNat) = some c →
      (s.pc.toNat + c.len ≤ 256 →
        ∃ i, i.opcode = c ∧ (∀ b ∈ i.operands, b = s.mem.read (s.pc.toNat + 1)) ∧ step s = exec i s) ∧
      (256 < s.pc.toNat + c.len → ∃ t, step s = .next t ∧ s.FaultedFrom t .outOfRangeAddress 256))

/-- An unknown opcode faults with the byte as info and executes nothing (R84). -/
def Obligations.UnknownOpcodeFaults : Prop :=
  ∀ s : State, s.fsm = .running → s.pc.toNat ≤ 255 → s.pc.toNat ≤ 253 ∨ s.cfg.prefetchOor = .ignore →
    decodeOpcode s.cfg.extAlu (s.mem.read s.pc.toNat) = none →
    ∃ t, step s = .next t ∧ s.FaultedFrom t .unknownOpcode (s.mem.read s.pc.toNat).toNat

/-- The operand checks (R85): first, under `ignore`, a used byte past address 255 faults with its address, which is 256, whatever
the other operand is; then the first register operand above 7 faults with the byte. The register operands are byte 1 of
formats R, RI and RR and byte 2 of RR; where none is above 7, no such fault is raised, whatever LDI's byte 2 is. -/
def Obligations.OperandChecks : Prop :=
  (∀ i : Instr, i.regOperands = match i.opcode.format with
    | .Z => []
    | .R | .RI => i.operands.take 1
    | .RR => i.operands) ∧
  (∀ (s : State) (c : Opcode), s.fsm = .running → s.pc.toNat ≤ 255 → s.cfg.prefetchOor = .ignore →
    decodeOpcode s.cfg.extAlu (s.mem.read s.pc.toNat) = some c → 256 < s.pc.toNat + c.len →
    ∃ t, step s = .next t ∧ s.FaultedFrom t .outOfRangeAddress 256) ∧
  (∀ (s : State) (i : Instr) (b : Byte), i.regOperands.find? (fun r => decide (7 < r.toNat)) = some b →
    ∃ t, exec i s = .next t ∧ s.FaultedFrom t .outOfRangeRegister b.toNat) ∧
  (∀ (s t : State) (i : Instr), (∀ b ∈ i.regOperands, b.toNat ≤ 7) → exec i s = .next t →
    t.haltCause = .outOfRangeRegister → s.haltCause = .outOfRangeRegister)

/-- The extension's instructions exist only when `EXT_ALU = true` (R140): otherwise their opcodes are unknown, and no step changes
the option or any other part of the configuration. -/
def Obligations.ExtensionNeedsTheOption : Prop :=
  (∀ (s : State) (c : Opcode), c.isExt = true → s.cfg.extAlu = false → s.fsm = .running → s.pc.toNat ≤ 255 →
    s.pc.toNat ≤ 253 ∨ s.cfg.prefetchOor = .ignore → s.mem.read s.pc.toNat = c.byte →
    ∃ t, step s = .next t ∧ s.FaultedFrom t .unknownOpcode c.byte.toNat) ∧
  (∀ c : Opcode, decodeOpcode true c.byte = some c) ∧
  (∀ s t : State, step s = .next t → t.cfg = s.cfg)

/-- A step happens exactly in RUNNING: HALTED takes none (R90), which the model says with
the fault `halted` (log entry 5), and RUNNING is never stuck and never refuses (R81, R86;
93_implementation_defined.md section 3). -/
def Obligations.StepExistsExactlyWhenRunning : Prop :=
  ∀ s : State, (s.fsm = .halted → step s = .fault .halted) ∧ (s.fsm = .running → ∃ t, step s = .next t)

/-- The FSM's transitions (R80) and the halt record's one write (R32): a step from RUNNING executes an instruction other than
HLT and stays in RUNNING with the halt record as before, or executes an HLT, or faults with one of the four causes that can
arise. -/
def Obligations.FsmTransitions : Prop :=
  ∀ s t : State, step s = .next t → s.fsm = .running ∧
    ((t.fsm = .running ∧ s.SameControl t ∧ s.mem.read s.pc.toNat ≠ 0x01) ∨
     (t.fsm = .halted ∧ t.haltCause = .hlt ∧ s.mem.read s.pc.toNat = 0x01 ∧ t.haltPc = s.pc ∧ t.haltInfoInt = 0) ∨
     (t.fsm = .halted ∧ (t.haltCause = .unknownOpcode ∨ t.haltCause = .outOfRangeAddress ∨
       t.haltCause = .outOfRangeRegister ∨ t.haltCause = .divideByZero) ∧ t.haltPc = s.pc))

/-- Every fault is precise (R88): nothing of the state changes but the FSM state and the halt record. -/
def Obligations.FaultsArePrecise : Prop :=
  ∀ s t : State, step s = .next t → t.fsm = .halted → t.haltCause ≠ .hlt →
    s.FaultedFrom t t.haltCause t.haltInfoInt

/-- What each cause means, and its info (R170), for a PC of 0 to 256 (R25). -/
def Obligations.HaltInfoByCause : Prop :=
  ∀ s t : State, step s = .next t → s.pc.toNat ≤ 256 → t.fsm = .halted →
    (t.haltCause = .unknownOpcode →
      t.haltInfoInt = (s.mem.read s.pc.toNat).toNat ∧
      decodeOpcode s.cfg.extAlu (s.mem.read s.pc.toNat) = none) ∧
    (t.haltCause = .outOfRangeAddress → t.haltInfoInt = -1 ∨ t.haltInfoInt = 256) ∧
    (t.haltCause = .outOfRangeRegister → 8 ≤ t.haltInfoInt ∧ t.haltInfoInt ≤ 255 ∧
      (t.haltInfoInt = (s.mem.read (s.pc.toNat + 1)).toNat ∨ t.haltInfoInt = (s.mem.read (s.pc.toNat + 2)).toNat)) ∧
    (t.haltCause = .divideByZero → s.cfg.extAlu = true ∧
      (s.mem.read s.pc.toNat = 0xA3 ∨ s.mem.read s.pc.toNat = 0xA4) ∧
      ∃ r : Reg, t.haltInfoInt = r.val ∧ s.readReg r = 0 ∧ s.mem.read (s.pc.toNat + 2) = Reg.byte r)

/-- UNSUPPORTED_ALU_OPERATION cannot happen (R112). -/
def Obligations.UnsupportedAluOperationNeverArises : Prop :=
  ∀ s t : State, step s = .next t → t.fsm = .halted → t.haltCause ≠ .unsupportedAluOperation

/-! ### Memory -/

/-- The two access primitives (R41, R42): in range a read gives the cell's byte, and a write changes that cell alone and nothing
else of the state; out of range each faults with the address. A read after a write gives the byte written (R49, R53). -/
def Obligations.MemoryAccessPrimitives : Prop :=
  ∀ (s : State) (addr : Nat) (v : Byte), s.mem.wf →
    (addr ≤ 255 → s.memRead addr = .ok (s.mem.read addr) ∧
      ∃ t, s.memWrite addr v = .ok t ∧ t.mem.wf ∧ t.memRead addr = .ok v ∧ s.SameMemoryBut t addr ∧
        t.setMem s.mem = s) ∧
    (255 < addr → s.memRead addr = .error ⟨.outOfRangeAddress, addr⟩ ∧
      s.memWrite addr v = .error ⟨.outOfRangeAddress, addr⟩)

/-- Instruction fetch sees every earlier store, and no step sees its own (R56): a PUSH at `p` runs as fetched although it stores
over the byte at `p + 2`, and that byte is the opcode the next step fetches. -/
def Obligations.StoreIsSeenByTheNextFetch : Prop :=
  ∀ (r : Reg) (s : State), s.mem.wf → s.fsm = .running → s.mem.read s.pc.toNat = 0x45 →
    s.mem.read (s.pc.toNat + 1) = Reg.byte r → (s.readReg SP).toNat = s.pc.toNat + 3 → s.pc.toNat ≤ 252 →
    ∃ t, step s = .next t ∧ t.fsm = .running ∧ t.pc.toNat = s.pc.toNat + 2 ∧
      t.memRead (t.address .pc) = .ok (if r = SP then t.readReg SP else s.readReg r)

/-! ### HLT, LDI, PRN -/

/-- HLT (R100), with its corner cases at the top of memory. -/
def Obligations.HltHalts : Prop :=
  encode .hlt = [0x01] ∧
  (∀ s : State, s.pc.toNat ≤ 256 → ∃ t, exec .hlt s = .next t ∧ t.fsm = .halted ∧ t.haltCause = .hlt ∧
    t.haltPc = s.pc ∧ t.haltInfoInt = 0 ∧ t.pc.toNat = s.pc.toNat + 1 ∧
    s.SameRegsBut t [] ∧ s.SameMemory t ∧ t.fl = s.fl ∧ t.out = s.out ∧ t.cfg = s.cfg) ∧
  (∀ s : State, s.fsm = .running → s.mem.read s.pc.toNat = 0x01 → 254 ≤ s.pc.toNat → s.pc.toNat ≤ 255 →
    (s.cfg.prefetchOor = .fault → ∃ t, step s = .next t ∧ s.FaultedFrom t .outOfRangeAddress 256) ∧
    (s.cfg.prefetchOor = .ignore → ∃ t, step s = .next t ∧ t.haltCause = .hlt ∧ t.fsm = .halted ∧
      t.pc.toNat = s.pc.toNat + 1))

/-- LDI (R101). -/
def Obligations.LdiLoadsTheImmediate : Prop :=
  ∀ (r : Reg) (v : Byte) (s : State), s.pc.toNat ≤ 256 →
    encode (.ldi (Reg.byte r) v) = [0x82, Reg.byte r, v] ∧
    ∃ t, exec (.ldi (Reg.byte r) v) s = .next t ∧ t.readReg r = v ∧ s.WritesOnlyReg t r 3

/-- PRN (R102): the value is appended to the output trace, which the host prints in decimal. -/
def Obligations.PrnEmitsTheRegister : Prop :=
  ∀ (r : Reg) (s : State), s.pc.toNat ≤ 256 →
    encode (.prn (Reg.byte r)) = [0x47, Reg.byte r] ∧
    ∃ t, exec (.prn (Reg.byte r)) s = .next t ∧ t.out = s.out ++ [s.readReg r] ∧
      t.printed = s.printed ++ [Nat.toDigits 10 (s.readReg r).toNat] ∧ t.pc.toNat = s.pc.toNat + 2 ∧
      s.SameRegsBut t [] ∧ s.SameMemory t ∧ t.fl = s.fl ∧ s.SameControl t

/-! ### The ALU. Of these, only ADD and MUL are the source's: the spec marks R140 to R151 "from general knowledge, not in source"
(log entry 13). The statements formalise those rules as they stand. -/

/-- ADD and MUL (R111, R113, R114, R115): the low 8 bits of the exact result on the old values of both operands. -/
def Obligations.AddMulKeepTheLowByte : Prop :=
  ∀ (ra rb : Reg) (s : State), s.pc.toNat ≤ 256 →
    (encode (.add (Reg.byte ra) (Reg.byte rb)) = [0xA0, Reg.byte ra, Reg.byte rb] ∧
     ∃ t, exec (.add (Reg.byte ra) (Reg.byte rb)) s = .next t ∧
      (t.readReg ra).toNat = ((s.readReg ra).toNat + (s.readReg rb).toNat) % 256 ∧ s.WritesOnlyReg t ra 3) ∧
    (encode (.mul (Reg.byte ra) (Reg.byte rb)) = [0xA2, Reg.byte ra, Reg.byte rb] ∧
     ∃ t, exec (.mul (Reg.byte ra) (Reg.byte rb)) s = .next t ∧
      (t.readReg ra).toNat = ((s.readReg ra).toNat * (s.readReg rb).toNat) % 256 ∧ s.WritesOnlyReg t ra 3)

/-- SUB (R142): the integer difference modulo 256. -/
def Obligations.SubIsModulo256 : Prop :=
  ∀ (ra rb : Reg) (s : State), s.pc.toNat ≤ 256 →
    encode (.sub (Reg.byte ra) (Reg.byte rb)) = [0xA1, Reg.byte ra, Reg.byte rb] ∧
    ∃ t, exec (.sub (Reg.byte ra) (Reg.byte rb)) s = .next t ∧
      ((t.readReg ra).toNat : Int) = (((s.readReg ra).toNat : Int) - (s.readReg rb).toNat) % 256 ∧
      s.WritesOnlyReg t ra 3

/-- DIV and MOD (R143, R144): floor quotient and remainder, and the fault on a zero divisor with the divisor's register index
as info. -/
def Obligations.DivModAndZeroDivisor : Prop :=
  ∀ (ra rb : Reg) (s : State), s.pc.toNat ≤ 256 →
    encode (.div (Reg.byte ra) (Reg.byte rb)) = [0xA3, Reg.byte ra, Reg.byte rb] ∧
    encode (.mod (Reg.byte ra) (Reg.byte rb)) = [0xA4, Reg.byte ra, Reg.byte rb] ∧
    ((s.readReg rb).toNat = 0 →
      (∃ t, exec (.div (Reg.byte ra) (Reg.byte rb)) s = .next t ∧ s.FaultedFrom t .divideByZero rb.val) ∧
      (∃ t, exec (.mod (Reg.byte ra) (Reg.byte rb)) s = .next t ∧ s.FaultedFrom t .divideByZero rb.val)) ∧
    ((s.readReg rb).toNat ≠ 0 →
      (∃ t, exec (.div (Reg.byte ra) (Reg.byte rb)) s = .next t ∧
        (t.readReg ra).toNat = (s.readReg ra).toNat / (s.readReg rb).toNat ∧ s.WritesOnlyReg t ra 3) ∧
      (∃ t, exec (.mod (Reg.byte ra) (Reg.byte rb)) s = .next t ∧
        (t.readReg ra).toNat = (s.readReg ra).toNat % (s.readReg rb).toNat ∧ s.WritesOnlyReg t ra 3))

/-- CMP (R145, R34): FL is `0b00000LGE` of the unsigned comparison, and no register changes. -/
def Obligations.CmpWritesTheFlags : Prop :=
  ∀ (ra rb : Reg) (s : State), s.pc.toNat ≤ 256 →
    encode (.cmp (Reg.byte ra) (Reg.byte rb)) = [0xA7, Reg.byte ra, Reg.byte rb] ∧
    ∃ t, exec (.cmp (Reg.byte ra) (Reg.byte rb)) s = .next t ∧
      (t.flagL = true ↔ (s.readReg ra).toNat < (s.readReg rb).toNat) ∧
      (t.flagG = true ↔ (s.readReg rb).toNat < (s.readReg ra).toNat) ∧
      (t.flagE = true ↔ (s.readReg ra).toNat = (s.readReg rb).toNat) ∧
      t.fl.toNat = 4 * t.flagL.toNat + 2 * t.flagG.toNat + t.flagE.toNat ∧
      t.pc.toNat = s.pc.toNat + 3 ∧ s.SameRegsBut t [] ∧ s.SameMemory t ∧ t.out = s.out ∧ s.SameControl t

/-- AND, OR and XOR (R146, R147, R148), bit by bit. -/
def Obligations.AndOrXorBitByBit : Prop :=
  ∀ (ra rb : Reg) (s : State), s.pc.toNat ≤ 256 →
    (encode (.and (Reg.byte ra) (Reg.byte rb)) = [0xA8, Reg.byte ra, Reg.byte rb] ∧
     ∃ t, exec (.and (Reg.byte ra) (Reg.byte rb)) s = .next t ∧
      (∀ k, (t.readReg ra).getLsbD k = ((s.readReg ra).getLsbD k && (s.readReg rb).getLsbD k)) ∧
      s.WritesOnlyReg t ra 3) ∧
    (encode (.or (Reg.byte ra) (Reg.byte rb)) = [0xAA, Reg.byte ra, Reg.byte rb] ∧
     ∃ t, exec (.or (Reg.byte ra) (Reg.byte rb)) s = .next t ∧
      (∀ k, (t.readReg ra).getLsbD k = ((s.readReg ra).getLsbD k || (s.readReg rb).getLsbD k)) ∧
      s.WritesOnlyReg t ra 3) ∧
    (encode (.xor (Reg.byte ra) (Reg.byte rb)) = [0xAB, Reg.byte ra, Reg.byte rb] ∧
     ∃ t, exec (.xor (Reg.byte ra) (Reg.byte rb)) s = .next t ∧
      (∀ k, (t.readReg ra).getLsbD k = ((s.readReg ra).getLsbD k ^^ (s.readReg rb).getLsbD k)) ∧
      s.WritesOnlyReg t ra 3)

/-- NOT (R149): `255 - x[a]`, in two bytes. -/
def Obligations.NotComplements : Prop :=
  ∀ (r : Reg) (s : State), s.pc.toNat ≤ 256 →
    encode (.not (Reg.byte r)) = [0x69, Reg.byte r] ∧
    ∃ t, exec (.not (Reg.byte r)) s = .next t ∧ (t.readReg r).toNat = 255 - (s.readReg r).toNat ∧
      s.WritesOnlyReg t r 2

/-- SHL and SHR (R150, R151): the count is the whole byte, not masked, and zeros fill. -/
def Obligations.ShiftsByTheWholeCount : Prop :=
  ∀ (ra rb : Reg) (s : State), s.pc.toNat ≤ 256 →
    (encode (.shl (Reg.byte ra) (Reg.byte rb)) = [0xAC, Reg.byte ra, Reg.byte rb] ∧
     ∃ t, exec (.shl (Reg.byte ra) (Reg.byte rb)) s = .next t ∧
      (t.readReg ra).toNat = (s.readReg ra).toNat * 2 ^ (s.readReg rb).toNat % 256 ∧ s.WritesOnlyReg t ra 3) ∧
    (encode (.shr (Reg.byte ra) (Reg.byte rb)) = [0xAD, Reg.byte ra, Reg.byte rb] ∧
     ∃ t, exec (.shr (Reg.byte ra) (Reg.byte rb)) s = .next t ∧
      (t.readReg ra).toNat = (s.readReg ra).toNat / 2 ^ (s.readReg rb).toNat ∧ s.WritesOnlyReg t ra 3)

/-! ### The stack -/

/-- PUSH (R121, R122): the fault at stack pointer 0, otherwise the decrement, then the store of the operand, read after the
decrement, at the new stack pointer. -/
def Obligations.PushStoresBelowTheStackPointer : Prop :=
  ∀ (r : Reg) (s : State), s.mem.wf → s.pc.toNat ≤ 256 →
    encode (.push (Reg.byte r)) = [0x45, Reg.byte r] ∧
    ((s.readReg SP).toNat = 0 → ∃ t, exec (.push (Reg.byte r)) s = .next t ∧ s.FaultedFrom t .outOfRangeAddress (-1)) ∧
    ((s.readReg SP).toNat ≠ 0 → ∃ t, exec (.push (Reg.byte r)) s = .next t ∧
      (t.readReg SP).toNat = (s.readReg SP).toNat - 1 ∧ s.SameRegsBut t [SP] ∧
      t.mem.read ((s.readReg SP).toNat - 1) = (if r = SP then t.readReg SP else s.readReg r) ∧
      s.SameMemoryBut t ((s.readReg SP).toNat - 1) ∧ t.pc.toNat = s.pc.toNat + 2 ∧
      t.fl = s.fl ∧ t.out = s.out ∧ s.SameControl t)

/-- POP (R121, R123): the byte at the stack pointer goes to the operand, then the stack pointer, as the first write left it, is
incremented; where that would give 256, the fault. -/
def Obligations.PopLoadsThenIncrements : Prop :=
  ∀ (r : Reg) (s : State), s.pc.toNat ≤ 256 →
    encode (.pop (Reg.byte r)) = [0x46, Reg.byte r] ∧
    ∀ v base : Byte, v = s.mem.read (s.readReg SP).toNat → base = (if r = SP then v else s.readReg SP) →
    (base.toNat = 255 → ∃ t, exec (.pop (Reg.byte r)) s = .next t ∧ s.FaultedFrom t .outOfRangeAddress 256) ∧
    (base.toNat ≠ 255 → ∃ t, exec (.pop (Reg.byte r)) s = .next t ∧
      (t.readReg SP).toNat = base.toNat + 1 ∧ (r ≠ SP → t.readReg r = v) ∧ s.SameRegsBut t [r, SP] ∧
      s.SameMemory t ∧ t.pc.toNat = s.pc.toNat + 2 ∧ t.fl = s.fl ∧ t.out = s.out ∧ s.SameControl t)

/-- CALL (R121, R124, R127): the two faults in order, otherwise the return address `pc + 2` is pushed and the PC takes the
operand, read after the decrement. Under `PREFETCH_OOR = fault` a CALL above 253 does not get as far. -/
def Obligations.CallPushesTheReturnAddress : Prop :=
  (∀ s t : State, s.cfg.prefetchOor = .fault → s.mem.read s.pc.toNat = 0x50 → step s = .next t → t.fsm = .running →
    s.pc.toNat ≤ 253) ∧
  ∀ (r : Reg) (s : State), s.mem.wf → s.pc.toNat ≤ 256 →
    encode (.call (Reg.byte r)) = [0x50, Reg.byte r] ∧
    ((s.readReg SP).toNat = 0 → ∃ t, exec (.call (Reg.byte r)) s = .next t ∧ s.FaultedFrom t .outOfRangeAddress (-1)) ∧
    ((s.readReg SP).toNat ≠ 0 → 255 < s.pc.toNat + 2 → ∃ t, exec (.call (Reg.byte r)) s = .next t ∧
      s.FaultedFrom t .outOfRangeAddress (s.pc.toNat + 2 : Nat)) ∧
    ((s.readReg SP).toNat ≠ 0 → s.pc.toNat + 2 ≤ 255 → ∃ t, exec (.call (Reg.byte r)) s = .next t ∧
      (t.readReg SP).toNat = (s.readReg SP).toNat - 1 ∧ s.SameRegsBut t [SP] ∧
      (t.mem.read ((s.readReg SP).toNat - 1)).toNat = s.pc.toNat + 2 ∧
      s.SameMemoryBut t ((s.readReg SP).toNat - 1) ∧ t.pc.toNat = (t.readReg r).toNat ∧
      t.fl = s.fl ∧ t.out = s.out ∧ s.SameControl t)

/-- RET (R121, R125, R127): the fault at stack pointer 255, otherwise the PC takes the byte at the stack pointer, which is
incremented. -/
def Obligations.RetPopsThePc : Prop :=
  ∀ s : State,
    encode .ret = [0x11] ∧
    ((s.readReg SP).toNat = 255 → ∃ t, exec .ret s = .next t ∧ s.FaultedFrom t .outOfRangeAddress 256) ∧
    ((s.readReg SP).toNat ≠ 255 → ∃ t, exec .ret s = .next t ∧
      (t.readReg SP).toNat = (s.readReg SP).toNat + 1 ∧ s.SameRegsBut t [SP] ∧ s.SameMemory t ∧
      t.pc.toNat = (s.mem.read (s.readReg SP).toNat).toNat ∧ t.fl = s.fl ∧ t.out = s.out ∧ s.SameControl t)

/-- The two laws of R128, which the spec derives from R122 to R125. A PUSH then a POP of one register, R7 included, leave every register as it was and the pushed byte
below the stack pointer. A CALL at `p <= 253`, a subroutine that leaves the stack pointer and the top of the stack as the CALL
left them, then a RET, resume at `p + 2` with every register as the subroutine left it but the stack pointer, which is the
caller's. -/
def Obligations.StackRoundTrips : Prop :=
  (∀ (r : Reg) (s : State), s.mem.wf → 1 ≤ (s.readReg SP).toNat →
    ∃ t u, exec (.push (Reg.byte r)) s = .next t ∧ exec (.pop (Reg.byte r)) t = .next u ∧
      s.SameRegsBut u [] ∧ s.SameControl t ∧ s.SameControl u ∧
      (u.mem.read ((s.readReg SP).toNat - 1)).toNat =
        (if r = SP then (s.readReg SP).toNat - 1 else (s.readReg r).toNat)) ∧
  (∀ (r : Reg) (s u : State), s.mem.wf → 1 ≤ (s.readReg SP).toNat → s.pc.toNat ≤ 253 →
    ∃ t, exec (.call (Reg.byte r)) s = .next t ∧ s.SameControl t ∧
      (u.readReg SP = t.readReg SP → u.mem.read (u.readReg SP).toNat = t.mem.read (t.readReg SP).toNat →
        ∃ v, exec .ret u = .next v ∧ v.pc.toNat = s.pc.toNat + 2 ∧ u.SameRegsBut v [SP] ∧
          v.readReg SP = s.readReg SP ∧ u.SameControl v))

/-- PUSH followed by RET is a jump to the pushed value that leaves every register as it was (R125 corner cases, R91). -/
def Obligations.PushRetIsAnIndirectJump : Prop :=
  ∀ (r : Reg) (s : State), s.mem.wf → 1 ≤ (s.readReg SP).toNat →
    ∃ t u, exec (.push (Reg.byte r)) s = .next t ∧ exec .ret t = .next u ∧ s.SameRegsBut u [] ∧
      u.pc.toNat = (if r = SP then (s.readReg SP).toNat - 1 else (s.readReg r).toNat)

/-! ### The machine as a whole -/

/-- The PC update (R87): a step that does not fault adds the length to the PC, HLT included, and the sum is at most 256; CALL and
RET set it instead. -/
def Obligations.PcUpdate : Prop :=
  ∀ s t : State, step s = .next t → t.fsm = .running ∨ t.haltCause = .hlt →
    ∃ c, decodeOpcode s.cfg.extAlu (s.mem.read s.pc.toNat) = some c ∧
      (c ≠ .call → c ≠ .ret → t.pc.toNat = s.pc.toNat + c.len ∧ t.pc.toNat ≤ 256) ∧
      (c = .call → ∃ r : Reg, s.mem.read (s.pc.toNat + 1) = Reg.byte r ∧ t.pc.toNat = (t.readReg r).toNat) ∧
      (c = .ret → t.pc.toNat = (s.mem.read (s.readReg SP).toNat).toNat)

/-- Only PRN writes the output trace, and it appends the register's value (R33). -/
def Obligations.OnlyPrnWritesTheOutput : Prop :=
  ∀ s t : State, step s = .next t → t.out = s.out ∨
    (s.mem.read s.pc.toNat = 0x47 ∧ ∃ r : Reg, s.mem.read (s.pc.toNat + 1) = Reg.byte r ∧
      t.out = s.out ++ [s.readReg r])

/-- Only CMP writes FL, and no instruction reads it (R141); with `EXT_ALU = false` nothing writes it (R34). Of two states that
differ in FL only, the steps differ in FL at most, and there only by keeping it. -/
def Obligations.FlIsWrittenByCmpAndReadByNone : Prop :=
  ∀ s t : State, step s = .next t →
    (t.fl ≠ s.fl → s.mem.read s.pc.toNat = 0xA7 ∧ s.cfg.extAlu = true) ∧
    (∀ v, step (s.setFl v) = .next t ∨ (t.fl = s.fl ∧ step (s.setFl v) = .next (t.setFl v)))

/-- Only PUSH and CALL write memory, one byte at the decremented stack pointer (R44, R92). -/
def Obligations.OnlyPushAndCallWriteMemory : Prop :=
  ∀ s t : State, step s = .next t → s.SameMemory t ∨
    ((s.mem.read s.pc.toNat = 0x45 ∨ s.mem.read s.pc.toNat = 0x50) ∧ (s.readReg SP).toNat ≠ 0 ∧
      s.SameMemoryBut t ((s.readReg SP).toNat - 1))

/-- The registers a step writes (R92): the first operand of LDI, POP and the ALU instructions but CMP, and the stack pointer by
PUSH, POP, CALL and RET; no other. -/
def Obligations.RegistersWritten : Prop :=
  ∀ (s t : State) (r : Reg), step s = .next t → t.readReg r ≠ s.readReg r →
    ∃ c, decodeOpcode s.cfg.extAlu (s.mem.read s.pc.toNat) = some c ∧
      ((c ∈ [Opcode.ldi, .pop, .add, .mul, .sub, .div, .mod, .and, .or, .xor, .not, .shl, .shr] ∧
        s.mem.read (s.pc.toNat + 1) = Reg.byte r) ∨
       (c ∈ [Opcode.push, .pop, .call, .ret] ∧ r = SP))

/-- A step reads at most four bytes of memory: those at `pc`, `pc + 1`, `pc + 2` and `x[7]` (R44). Two states that differ only in
other bytes step alike: everything but memory is equal afterwards, and each cell is either written with one byte in both, or
as it was in both. -/
def Obligations.StepDependsOnFourBytes : Prop :=
  ∀ (s t : State) (m : Memory), s.mem.wf → m.wf →
    m.read s.pc.toNat = s.mem.read s.pc.toNat → m.read (s.pc.toNat + 1) = s.mem.read (s.pc.toNat + 1) →
    m.read (s.pc.toNat + 2) = s.mem.read (s.pc.toNat + 2) →
    m.read (s.readReg SP).toNat = s.mem.read (s.readReg SP).toNat →
    step s = .next t →
    ∃ n, step (s.setMem m) = .next (t.setMem n) ∧
      ∀ a, n.read a = t.mem.read a ∨ (n.read a = m.read a ∧ t.mem.read a = s.mem.read a)

/-- The invariant of a run is kept by every step: canonical memory, a PC of 0 to 256 (R25), an FL of 0 or one flag (R34), an FL
that stays 0 without the extension (R34; that the model has the field at all there is its own, log entry 4), and a halt record that fits the FSM state (R32, R88, R100, R112, R170). -/
def Obligations.StepKeepsTheRunInvariant : Prop :=
  ∀ s t : State, s.Inv → step s = .next t → t.Inv

/-- The invariant holds after reset in every configuration (R38, R190; FL without the extension: log entry 4). -/
def Obligations.ResetMeetsTheRunInvariant : Prop :=
  State.reset.Inv ∧ ∀ cfg : Config, (State.resetWith cfg).Inv

/-- A run from any launch meets the invariant at every step and keeps the launch's configuration, whatever the image and
`MEM_INIT` are (R25, R32, R191, R196). -/
def Obligations.RunFromLaunchMeetsTheInvariant : Prop :=
  ∀ (cfg : Config) (memInit : Nat → Byte) (image : List Byte) (s : State) (k : Nat),
    launch cfg memInit image = .ok s → (s.run k).Inv ∧ (s.run k).cfg = cfg

/-- HALTED is final (R90, R181): no step leaves it, and once a run has reached it, every piece of state keeps its value for
good. -/
def Obligations.HaltedIsFinal : Prop :=
  (∀ s t : State, s.fsm = .halted → step s ≠ .next t) ∧
  (∀ (s : State) (k j : Nat), (s.run k).fsm = .halted → s.run (k + j) = s.run k)

/-- Reset (R38, R190), in every configuration. `State.reset` is its value at the defaults of R6 (the default `SP_INIT`: log entry
2). R38 and R190 give FL only with `EXT_ALU = true`; that the model holds FL as 0 without it is its own (log entry 4). What
memory reads as is not stated. -/
def Obligations.ResetValues : Prop :=
  State.reset = State.resetWith { spInit := 0xF4, prefetchOor := .fault, extAlu := false } ∧
  ∀ cfg : Config, (State.resetWith cfg).fsm = .running ∧ (State.resetWith cfg).pc.toNat = 0 ∧
    (∀ r : Reg, (State.resetWith cfg).readReg r = if r.val = 7 then cfg.spInit else 0) ∧
    (State.resetWith cfg).fl = 0 ∧ (State.resetWith cfg).haltCause = .none ∧ (State.resetWith cfg).haltPc.toNat = 0 ∧
    (State.resetWith cfg).haltInfoInt = 0 ∧ (State.resetWith cfg).out = [] ∧ (State.resetWith cfg).cfg = cfg

/-- Launch (R191, R193): an image of at most 256 bytes gives the reset state with the image from address 0 on and `MEM_INIT` in
every other cell, whatever `MEM_INIT` is, and meets the invariant; a longer image, or a text with a malformed line, is refused;
a text in R71's form launches as its bytes do. That the refusal names the line, by its number from 0, is the model's choice
(log entry 9), and so is what else a malformed line is beside R71's words. That the first malformed line is reported, also
where the text gives more than 256 bytes, is the model's choice too (log entry 15). -/
def Obligations.LaunchLoadsTheImage : Prop :=
  (∀ (cfg : Config) (memInit : Nat → Byte) (image : List Byte), image.length ≤ 256 →
    ∃ s, launch cfg memInit image = .ok s ∧ s.Inv ∧ s.setMem [] = State.resetWith cfg ∧
      (∀ a v, image[a]? = some v → s.mem.read a = v) ∧
      (∀ a, image.length ≤ a → a < 256 → s.mem.read a = memInit a)) ∧
  (∀ (cfg : Config) (memInit : Nat → Byte) (image : List Byte), 256 < image.length →
    launch cfg memInit image = .error (.imageTooLong image.length)) ∧
  (∀ (cfg : Config) (memInit : Nat → Byte) (before after : List (List Char)) (line : List Char),
    (∀ l ∈ line :: before, ∀ c ∈ l, c ≠ '\n') → (∀ l ∈ before, parseLine l ≠ none) → parseLine line = none →
    launchText cfg memInit
      ((before.flatMap fun l => l ++ ['\n']) ++ line ++ (after.flatMap fun l => '\n' :: l)) =
      .error (.malformedLine before.length)) ∧
  (∀ (cfg : Config) (memInit : Nat → Byte) (lines : List (Option Byte × Option (List Char))),
    (∀ l ∈ lines, ∀ c ∈ l.2.getD [], c ≠ '\n') →
    launchText cfg memInit (lines.flatMap fun l => renderLine l.1 l.2 ++ ['\n']) =
      launch cfg memInit (lines.filterMap fun l => l.1))
end

