-- ==== Sys2Proof/Laws/State.lean ====
section
/-! SUPPORT. What each update of State does to each field: one lemma per field per update. -/

namespace Sys2Proof.Machine

@[simp] theorem State.setMem_fsm (s : State) (m : Memory) :
    (s.setMem m).fsm = s.fsm := rfl
@[simp] theorem State.setMem_pc (s : State) (m : Memory) :
    (s.setMem m).pc = s.pc := rfl
@[simp] theorem State.setMem_x (s : State) (m : Memory) :
    (s.setMem m).x = s.x := rfl
@[simp] theorem State.setMem_mem (s : State) (m : Memory) :
    (s.setMem m).mem = m := rfl
@[simp] theorem State.setMem_fl (s : State) (m : Memory) :
    (s.setMem m).fl = s.fl := rfl
@[simp] theorem State.setMem_haltCause (s : State) (m : Memory) :
    (s.setMem m).haltCause = s.haltCause := rfl
@[simp] theorem State.setMem_haltPc (s : State) (m : Memory) :
    (s.setMem m).haltPc = s.haltPc := rfl
@[simp] theorem State.setMem_haltInfo (s : State) (m : Memory) :
    (s.setMem m).haltInfo = s.haltInfo := rfl
@[simp] theorem State.setMem_out (s : State) (m : Memory) :
    (s.setMem m).out = s.out := rfl
@[simp] theorem State.setMem_cfg (s : State) (m : Memory) :
    (s.setMem m).cfg = s.cfg := rfl

@[simp] theorem State.writeReg_fsm (s : State) (r : Reg) (v : Byte) :
    (s.writeReg r v).fsm = s.fsm := rfl
@[simp] theorem State.writeReg_pc (s : State) (r : Reg) (v : Byte) :
    (s.writeReg r v).pc = s.pc := rfl
@[simp] theorem State.writeReg_x (s : State) (r : Reg) (v : Byte) :
    (s.writeReg r v).x = s.x.set r.val v := rfl
@[simp] theorem State.writeReg_mem (s : State) (r : Reg) (v : Byte) :
    (s.writeReg r v).mem = s.mem := rfl
@[simp] theorem State.writeReg_fl (s : State) (r : Reg) (v : Byte) :
    (s.writeReg r v).fl = s.fl := rfl
@[simp] theorem State.writeReg_haltCause (s : State) (r : Reg) (v : Byte) :
    (s.writeReg r v).haltCause = s.haltCause := rfl
@[simp] theorem State.writeReg_haltPc (s : State) (r : Reg) (v : Byte) :
    (s.writeReg r v).haltPc = s.haltPc := rfl
@[simp] theorem State.writeReg_haltInfo (s : State) (r : Reg) (v : Byte) :
    (s.writeReg r v).haltInfo = s.haltInfo := rfl
@[simp] theorem State.writeReg_out (s : State) (r : Reg) (v : Byte) :
    (s.writeReg r v).out = s.out := rfl
@[simp] theorem State.writeReg_cfg (s : State) (r : Reg) (v : Byte) :
    (s.writeReg r v).cfg = s.cfg := rfl

@[simp] theorem State.setPc_fsm (s : State) (p : PcWord) :
    (s.setPc p).fsm = s.fsm := rfl
@[simp] theorem State.setPc_pc (s : State) (p : PcWord) :
    (s.setPc p).pc = p := rfl
@[simp] theorem State.setPc_x (s : State) (p : PcWord) :
    (s.setPc p).x = s.x := rfl
@[simp] theorem State.setPc_mem (s : State) (p : PcWord) :
    (s.setPc p).mem = s.mem := rfl
@[simp] theorem State.setPc_fl (s : State) (p : PcWord) :
    (s.setPc p).fl = s.fl := rfl
@[simp] theorem State.setPc_haltCause (s : State) (p : PcWord) :
    (s.setPc p).haltCause = s.haltCause := rfl
@[simp] theorem State.setPc_haltPc (s : State) (p : PcWord) :
    (s.setPc p).haltPc = s.haltPc := rfl
@[simp] theorem State.setPc_haltInfo (s : State) (p : PcWord) :
    (s.setPc p).haltInfo = s.haltInfo := rfl
@[simp] theorem State.setPc_out (s : State) (p : PcWord) :
    (s.setPc p).out = s.out := rfl
@[simp] theorem State.setPc_cfg (s : State) (p : PcWord) :
    (s.setPc p).cfg = s.cfg := rfl

@[simp] theorem State.advance_fsm (s : State) (n : Nat) :
    (s.advance n).fsm = s.fsm := rfl
@[simp] theorem State.advance_pc (s : State) (n : Nat) :
    (s.advance n).pc = s.pc + BitVec.ofNat 9 n := rfl
@[simp] theorem State.advance_x (s : State) (n : Nat) :
    (s.advance n).x = s.x := rfl
@[simp] theorem State.advance_mem (s : State) (n : Nat) :
    (s.advance n).mem = s.mem := rfl
@[simp] theorem State.advance_fl (s : State) (n : Nat) :
    (s.advance n).fl = s.fl := rfl
@[simp] theorem State.advance_haltCause (s : State) (n : Nat) :
    (s.advance n).haltCause = s.haltCause := rfl
@[simp] theorem State.advance_haltPc (s : State) (n : Nat) :
    (s.advance n).haltPc = s.haltPc := rfl
@[simp] theorem State.advance_haltInfo (s : State) (n : Nat) :
    (s.advance n).haltInfo = s.haltInfo := rfl
@[simp] theorem State.advance_out (s : State) (n : Nat) :
    (s.advance n).out = s.out := rfl
@[simp] theorem State.advance_cfg (s : State) (n : Nat) :
    (s.advance n).cfg = s.cfg := rfl

@[simp] theorem State.setFl_fsm (s : State) (v : Byte) :
    (s.setFl v).fsm = s.fsm := rfl
@[simp] theorem State.setFl_pc (s : State) (v : Byte) :
    (s.setFl v).pc = s.pc := rfl
@[simp] theorem State.setFl_x (s : State) (v : Byte) :
    (s.setFl v).x = s.x := rfl
@[simp] theorem State.setFl_mem (s : State) (v : Byte) :
    (s.setFl v).mem = s.mem := rfl
@[simp] theorem State.setFl_fl (s : State) (v : Byte) :
    (s.setFl v).fl = v := rfl
@[simp] theorem State.setFl_haltCause (s : State) (v : Byte) :
    (s.setFl v).haltCause = s.haltCause := rfl
@[simp] theorem State.setFl_haltPc (s : State) (v : Byte) :
    (s.setFl v).haltPc = s.haltPc := rfl
@[simp] theorem State.setFl_haltInfo (s : State) (v : Byte) :
    (s.setFl v).haltInfo = s.haltInfo := rfl
@[simp] theorem State.setFl_out (s : State) (v : Byte) :
    (s.setFl v).out = s.out := rfl
@[simp] theorem State.setFl_cfg (s : State) (v : Byte) :
    (s.setFl v).cfg = s.cfg := rfl

@[simp] theorem State.emit_fsm (s : State) (v : Byte) :
    (s.emit v).fsm = s.fsm := rfl
@[simp] theorem State.emit_pc (s : State) (v : Byte) :
    (s.emit v).pc = s.pc := rfl
@[simp] theorem State.emit_x (s : State) (v : Byte) :
    (s.emit v).x = s.x := rfl
@[simp] theorem State.emit_mem (s : State) (v : Byte) :
    (s.emit v).mem = s.mem := rfl
@[simp] theorem State.emit_fl (s : State) (v : Byte) :
    (s.emit v).fl = s.fl := rfl
@[simp] theorem State.emit_haltCause (s : State) (v : Byte) :
    (s.emit v).haltCause = s.haltCause := rfl
@[simp] theorem State.emit_haltPc (s : State) (v : Byte) :
    (s.emit v).haltPc = s.haltPc := rfl
@[simp] theorem State.emit_haltInfo (s : State) (v : Byte) :
    (s.emit v).haltInfo = s.haltInfo := rfl
@[simp] theorem State.emit_out (s : State) (v : Byte) :
    (s.emit v).out = s.out ++ [v] := rfl
@[simp] theorem State.emit_cfg (s : State) (v : Byte) :
    (s.emit v).cfg = s.cfg := rfl

@[simp] theorem State.halt_fsm (s : State) (c : HaltCause) (n : Int) :
    (s.halt c n).fsm = .halted := rfl
@[simp] theorem State.halt_pc (s : State) (c : HaltCause) (n : Int) :
    (s.halt c n).pc = s.pc := rfl
@[simp] theorem State.halt_x (s : State) (c : HaltCause) (n : Int) :
    (s.halt c n).x = s.x := rfl
@[simp] theorem State.halt_mem (s : State) (c : HaltCause) (n : Int) :
    (s.halt c n).mem = s.mem := rfl
@[simp] theorem State.halt_fl (s : State) (c : HaltCause) (n : Int) :
    (s.halt c n).fl = s.fl := rfl
@[simp] theorem State.halt_haltCause (s : State) (c : HaltCause) (n : Int) :
    (s.halt c n).haltCause = c := rfl
@[simp] theorem State.halt_haltPc (s : State) (c : HaltCause) (n : Int) :
    (s.halt c n).haltPc = s.pc := rfl
@[simp] theorem State.halt_haltInfo (s : State) (c : HaltCause) (n : Int) :
    (s.halt c n).haltInfo = BitVec.ofInt 10 n := rfl
@[simp] theorem State.halt_out (s : State) (c : HaltCause) (n : Int) :
    (s.halt c n).out = s.out := rfl
@[simp] theorem State.halt_cfg (s : State) (c : HaltCause) (n : Int) :
    (s.halt c n).cfg = s.cfg := rfl

@[simp] theorem State.raiseFault_fsm (s : State) (f : EngineFault) :
    (s.raiseFault f).fsm = .halted := rfl
@[simp] theorem State.raiseFault_pc (s : State) (f : EngineFault) :
    (s.raiseFault f).pc = s.pc := rfl
@[simp] theorem State.raiseFault_x (s : State) (f : EngineFault) :
    (s.raiseFault f).x = s.x := rfl
@[simp] theorem State.raiseFault_mem (s : State) (f : EngineFault) :
    (s.raiseFault f).mem = s.mem := rfl
@[simp] theorem State.raiseFault_fl (s : State) (f : EngineFault) :
    (s.raiseFault f).fl = s.fl := rfl
@[simp] theorem State.raiseFault_haltCause (s : State) (f : EngineFault) :
    (s.raiseFault f).haltCause = f.cause := rfl
@[simp] theorem State.raiseFault_haltPc (s : State) (f : EngineFault) :
    (s.raiseFault f).haltPc = s.pc := rfl
@[simp] theorem State.raiseFault_haltInfo (s : State) (f : EngineFault) :
    (s.raiseFault f).haltInfo = BitVec.ofInt 10 f.info := rfl
@[simp] theorem State.raiseFault_out (s : State) (f : EngineFault) :
    (s.raiseFault f).out = s.out := rfl
@[simp] theorem State.raiseFault_cfg (s : State) (f : EngineFault) :
    (s.raiseFault f).cfg = s.cfg := rfl

/-! Reads of a register after an update. -/

@[simp] theorem State.readReg_writeReg (s : State) (r q : Reg) (v : Byte) :
    (s.writeReg r v).readReg q = if q = r then v else s.readReg q := by
  simp only [State.readReg, State.writeReg_x, Vector.getElem_set, Fin.ext_iff, eq_comm]

theorem State.readReg_writeReg_same (s : State) (r : Reg) (v : Byte) : (s.writeReg r v).readReg r = v := by
  simp

theorem State.readReg_writeReg_other (s : State) {r q : Reg} (v : Byte) (h : q ≠ r) :
    (s.writeReg r v).readReg q = s.readReg q := by
  simp [h]

@[simp] theorem State.readReg_setPc (s : State) (p : PcWord) (r : Reg) : (s.setPc p).readReg r = s.readReg r := rfl
@[simp] theorem State.readReg_advance (s : State) (n : Nat) (r : Reg) : (s.advance n).readReg r = s.readReg r := rfl
@[simp] theorem State.readReg_setFl (s : State) (v : Byte) (r : Reg) : (s.setFl v).readReg r = s.readReg r := rfl
@[simp] theorem State.readReg_emit (s : State) (v : Byte) (r : Reg) : (s.emit v).readReg r = s.readReg r := rfl
@[simp] theorem State.readReg_halt (s : State) (c : HaltCause) (n : Int) (r : Reg) :
    (s.halt c n).readReg r = s.readReg r := rfl
@[simp] theorem State.readReg_raiseFault (s : State) (f : EngineFault) (r : Reg) :
    (s.raiseFault f).readReg r = s.readReg r := rfl
@[simp] theorem State.readReg_setMem (s : State) (m : Memory) (r : Reg) : (s.setMem m).readReg r = s.readReg r := rfl

/-- Two states with the same registers by index have the same register file. -/
theorem State.x_ext {s t : State} (h : ∀ r, t.readReg r = s.readReg r) : t.x = s.x := by
  apply Vector.ext
  intro i hi
  exact h ⟨i, hi⟩

/-- The advanced PC as a number, where it does not wrap (R87). -/
theorem State.advance_pc_toNat {s : State} {n : Nat} (h : s.pc.toNat + n < 512) :
    (s.advance n).pc.toNat = s.pc.toNat + n := by
  simp only [State.advance_pc, BitVec.toNat_add, BitVec.toNat_ofNat]
  omega

end Sys2Proof.Machine
end

