-- ==== Sys2Proof/Laws/Memory.lean ====
section
/-! SUPPORT. The laws of memory: read after write, and that every operation keeps the canonical form. -/

namespace Sys2Proof.Machine

@[simp] theorem Memory.read_nil (a : Nat) : Memory.read [] a = Memory.unlisted a := rfl

theorem Memory.wf_nil : Memory.wf [] := ⟨List.Pairwise.nil, by simp⟩

theorem Memory.wf_tail {c : Host.Cell} {m : Memory} (h : Memory.wf (c :: m)) : m.wf := by
  obtain ⟨hp, hc⟩ := h
  exact ⟨(List.pairwise_cons.mp hp).2, fun d hd => hc d (List.mem_cons_of_mem c hd)⟩

/-- The head of a well-formed memory is below every later cell. -/
theorem Memory.wf_head {c : Host.Cell} {m : Memory} (h : Memory.wf (c :: m)) : ∀ d ∈ m, c.1 < d.1 :=
  (List.pairwise_cons.mp h.1).1

theorem Memory.wf_cons {c : Host.Cell} {m : Memory} (hm : m.wf) (hlt : ∀ d ∈ m, c.1 < d.1)
    (ha : c.1 < 256) (hv : c.2 ≠ Memory.unlisted c.1) : Memory.wf (c :: m) := by
  refine ⟨List.pairwise_cons.mpr ⟨hlt, hm.1⟩, ?_⟩
  intro d hd
  rcases List.mem_cons.mp hd with rfl | hd
  · exact ⟨ha, hv⟩
  · exact hm.2 d hd

/-- A cell that no entry lists reads as an unlisted one. -/
theorem Memory.read_of_not_listed {m : Memory} {a : Nat} (h : ∀ c ∈ m, c.1 ≠ a) : m.read a = Memory.unlisted a := by
  induction m with
  | nil => rfl
  | cons c m ih =>
    have hc := h c (by simp)
    simp only [Memory.read, if_neg hc]
    exact ih fun d hd => h d (by simp [hd])

theorem Memory.read_entry_append_same (a : Nat) (v : Byte) (m : Memory) (h : ∀ c ∈ m, a < c.1) :
    Memory.read (Memory.entry a v ++ m) a = v := by
  by_cases hv : v = Memory.unlisted a
  · simp only [Memory.entry, if_pos hv, List.nil_append]
    rw [Memory.read_of_not_listed fun c hc => Nat.ne_of_gt (h c hc), hv]
  · simp [Memory.entry, if_neg hv, Memory.read]

theorem Memory.read_entry_append_other {a b : Nat} (v : Byte) (m : Memory) (h : b ≠ a) :
    Memory.read (Memory.entry a v ++ m) b = m.read b := by
  by_cases hv : v = Memory.unlisted a
  · simp [Memory.entry, if_pos hv]
  · simp [Memory.entry, if_neg hv, Memory.read, h.symm]

theorem Memory.wf_entry_append {a : Nat} (v : Byte) {m : Memory} (hm : m.wf) (h : ∀ c ∈ m, a < c.1) (ha : a < 256) :
    Memory.wf (Memory.entry a v ++ m) := by
  by_cases hv : v = Memory.unlisted a
  · simpa [Memory.entry, if_pos hv] using hm
  · simpa [Memory.entry, if_neg hv] using Memory.wf_cons (c := (a, v)) hm h ha hv

/-- Every cell of a memory after a write was there before or is the written one. -/
theorem Memory.mem_write {m : Memory} {a : Nat} {v : Byte} {c : Host.Cell} (h : c ∈ m.write a v) :
    c ∈ m ∨ c.1 = a := by
  induction m with
  | nil =>
    simp only [Memory.write, Memory.entry] at h
    split at h <;> simp_all
  | cons d m ih =>
    simp only [Memory.write, Memory.entry] at h
    split at h
    · split at h <;> simp_all
      rcases h with rfl | h | h <;> simp_all
    · split at h
      · split at h <;> simp_all
        rcases h with rfl | h <;> simp_all
      · rcases List.mem_cons.mp h with rfl | h
        · exact .inl (by simp)
        · rcases ih h with h | h
          · exact .inl (by simp [h])
          · exact .inr h

/-- A write to an address of memory keeps the canonical form. -/
theorem Memory.wf_write {m : Memory} (hm : m.wf) {a : Nat} (ha : a < 256) (v : Byte) : (m.write a v).wf := by
  induction m with
  | nil => simpa [Memory.write] using Memory.wf_entry_append v (m := []) Memory.wf_nil (by simp) ha
  | cons c m ih =>
    have hlt := Memory.wf_head hm
    simp only [Memory.write]
    split
    · rename_i h
      refine Memory.wf_entry_append v hm ?_ ha
      intro d hd
      rcases List.mem_cons.mp hd with rfl | hd
      · exact h
      · exact Nat.lt_trans h (hlt d hd)
    · split
      · rename_i h
        exact Memory.wf_entry_append v (Memory.wf_tail hm) (fun d hd => h ▸ hlt d hd) ha
      · refine Memory.wf_cons (ih (Memory.wf_tail hm)) ?_ (hm.2 c (by simp)).1 (hm.2 c (by simp)).2
        intro d hd
        rcases Memory.mem_write hd with h | h
        · exact hlt d h
        · omega

/-- A read of the written cell gives the written byte. -/
theorem Memory.read_write_same {m : Memory} (hm : m.wf) (a : Nat) (v : Byte) : (m.write a v).read a = v := by
  induction m with
  | nil => simpa [Memory.write] using Memory.read_entry_append_same a v [] (by simp)
  | cons c m ih =>
    have hlt := Memory.wf_head hm
    simp only [Memory.write]
    split
    · rename_i h
      refine Memory.read_entry_append_same a v _ ?_
      intro d hd
      rcases List.mem_cons.mp hd with rfl | hd
      · exact h
      · exact Nat.lt_trans h (hlt d hd)
    · split
      · rename_i h
        exact Memory.read_entry_append_same a v m fun d hd => h ▸ hlt d hd
      · rename_i h
        simp only [Memory.read, if_neg (Ne.symm h)]
        exact ih (Memory.wf_tail hm)

/-- A read of any other cell gives what it gave before. -/
theorem Memory.read_write_other (m : Memory) {a b : Nat} (v : Byte) (h : b ≠ a) : (m.write a v).read b = m.read b := by
  induction m with
  | nil => simpa [Memory.write] using Memory.read_entry_append_other v [] h
  | cons c m ih =>
    simp only [Memory.write]
    split
    · exact Memory.read_entry_append_other v _ h
    · split
      · rename_i h'
        rw [Memory.read_entry_append_other v _ h]
        simp [Memory.read, ← h', h.symm]
      · simp only [Memory.read, ih]

theorem Memory.read_write {m : Memory} (hm : m.wf) (a b : Nat) (v : Byte) :
    (m.write a v).read b = if b = a then v else m.read b := by
  split
  · rename_i h; rw [h, Memory.read_write_same hm]
  · exact Memory.read_write_other m v ‹_›

/-- Writing a run of bytes inside memory keeps the canonical form. -/
theorem Memory.wf_writeBytes {m : Memory} (hm : m.wf) {a : Nat} {vs : List Byte} (h : a + vs.length ≤ 256) :
    (m.writeBytes a vs).wf := by
  induction vs generalizing m a with
  | nil => exact hm
  | cons v vs ih =>
    simp only [List.length_cons] at h
    exact ih (Memory.wf_write hm (by omega) v) (by omega)

/-- What a cell holds after a run of bytes is written. -/
theorem Memory.read_writeBytes {m : Memory} (hm : m.wf) {a : Nat} {vs : List Byte} (h : a + vs.length ≤ 256) (b : Nat) :
    (m.writeBytes a vs).read b = if a ≤ b then vs.getD (b - a) (m.read b) else m.read b := by
  induction vs generalizing m a with
  | nil => simp [Memory.writeBytes]
  | cons v vs ih =>
    simp only [List.length_cons] at h
    rw [Memory.writeBytes, ih (Memory.wf_write hm (by omega) v) (by omega), Memory.read_write hm]
    by_cases h1 : a + 1 ≤ b
    · have h2 : b - a = (b - (a + 1)) + 1 := by omega
      rw [if_pos h1, if_pos (by omega : a ≤ b), if_neg (by omega : ¬ b = a), h2, List.getD_cons_succ]
    · by_cases h3 : b = a
      · subst h3; simp
      · rw [if_neg h1, if_neg h3, if_neg (by omega : ¬ a ≤ b)]

theorem Memory.flatMap_entry_mem {f : Nat → Byte} {as : List Nat} {c : Host.Cell}
    (h : c ∈ as.flatMap fun a => Memory.entry a (f a)) : c.1 ∈ as ∧ c.2 = f c.1 ∧ c.2 ≠ Memory.unlisted c.1 := by
  obtain ⟨a, ha, hc⟩ := List.mem_flatMap.mp h
  simp only [Memory.entry] at hc
  split at hc
  · simp at hc
  · simp only [List.mem_singleton] at hc
    subst hc
    exact ⟨ha, rfl, ‹_›⟩

theorem Memory.flatMap_entry_wf (f : Nat → Byte) {as : List Nat} (hs : as.Pairwise (· < ·)) (h : ∀ a ∈ as, a < 256) :
    Memory.wf (as.flatMap fun a => Memory.entry a (f a)) := by
  induction as with
  | nil => exact Memory.wf_nil
  | cons a as ih =>
    obtain ⟨h1, h2⟩ := List.pairwise_cons.mp hs
    rw [List.flatMap_cons]
    refine Memory.wf_entry_append _ (ih h2 fun b hb => h b (by simp [hb])) ?_ (h a (by simp))
    intro c hc
    exact h1 _ (Memory.flatMap_entry_mem hc).1

theorem Memory.flatMap_entry_read (f : Nat → Byte) {as : List Nat} (hs : as.Pairwise (· < ·)) {b : Nat} (hb : b ∈ as) :
    Memory.read (as.flatMap fun a => Memory.entry a (f a)) b = f b := by
  induction as with
  | nil => simp at hb
  | cons a as ih =>
    obtain ⟨h1, h2⟩ := List.pairwise_cons.mp hs
    rw [List.flatMap_cons]
    by_cases h : b = a
    · subst h
      exact Memory.read_entry_append_same b _ _ fun c hc => h1 _ (Memory.flatMap_entry_mem hc).1
    · rw [Memory.read_entry_append_other _ _ h]
      exact ih h2 (by simpa [h] using hb)

theorem Memory.wf_ofFun (f : Nat → Byte) : (Memory.ofFun f).wf :=
  Memory.flatMap_entry_wf f (by simpa using List.pairwise_lt_range) (by simp)

/-- Every contents of the 256 cells is some memory (R38, `MEM_INIT`). -/
theorem Memory.read_ofFun (f : Nat → Byte) {a : Nat} (h : a < 256) : (Memory.ofFun f).read a = f a :=
  Memory.flatMap_entry_read f (by simpa using List.pairwise_lt_range) (by simpa using h)

/-- A well-formed memory reads as unlisted past its last address. -/
theorem Memory.read_past_end {m : Memory} (hm : m.wf) {a : Nat} (h : 256 ≤ a) : m.read a = Memory.unlisted a :=
  Memory.read_of_not_listed fun c hc => by have := (hm.2 c hc).1; omega

/-- Equal contents are equal data. -/
theorem Memory.ext_of_read {m n : Memory} (hm : m.wf) (hn : n.wf) (h : ∀ a, m.read a = n.read a) : m = n := by
  induction m generalizing n with
  | nil =>
    cases n with
    | nil => rfl
    | cons d n =>
      have := h d.1
      simp only [Memory.read, if_true] at this
      exact absurd this.symm (hn.2 d (by simp)).2
  | cons c m ih =>
    have hc := hm.2 c (by simp)
    have hread : Memory.read (c :: m) c.1 = c.2 := by simp [Memory.read]
    cases n with
    | nil =>
      have := h c.1
      rw [hread, Memory.read_nil] at this
      exact absurd this hc.2
    | cons d n =>
      have hd := hn.2 d (by simp)
      have hreadd : Memory.read (d :: n) d.1 = d.2 := by simp [Memory.read]
      have hmlt := Memory.wf_head hm
      have hnlt := Memory.wf_head hn
      have key : c.1 = d.1 := by
        rcases Nat.lt_trichotomy c.1 d.1 with hlt | heq | hgt
        · have h1 := h c.1
          rw [hread, Memory.read_of_not_listed (m := d :: n)] at h1
          · exact absurd h1 hc.2
          · intro e he
            rcases List.mem_cons.mp he with rfl | he
            · omega
            · have := hnlt e he; omega
        · exact heq
        · have h1 := h d.1
          rw [hreadd, Memory.read_of_not_listed (m := c :: m)] at h1
          · exact absurd h1.symm hd.2
          · intro e he
            rcases List.mem_cons.mp he with rfl | he
            · omega
            · have := hmlt e he; omega
      have hval : c.2 = d.2 := by rw [← hread, h c.1, key, hreadd]
      have hcd : c = d := Prod.ext key hval
      subst hcd
      congr 1
      refine ih (Memory.wf_tail hm) (Memory.wf_tail hn) fun a => ?_
      by_cases ha : c.1 = a
      · subst ha
        rw [Memory.read_of_not_listed fun e he => by have := hmlt e he; omega,
          Memory.read_of_not_listed fun e he => by have := hnlt e he; omega]
      · simpa [Memory.read, ha] using h a

end Sys2Proof.Machine
end

