-- ==== Sys2Proof/Laws/Ops.lean ====
section
/-! SUPPORT. What each shared operation can do: one lemma per answer it can give. -/

namespace Sys2Proof.Machine

/-! ### Register operands (R62) -/

theorem Reg.byte_toNat (r : Reg) : (Reg.byte r).toNat = r.val := by
  simp only [Reg.byte, BitVec.toNat_ofNat]
  omega

@[simp] theorem regOperand_byte (r : Reg) : regOperand (Reg.byte r) = .ok r := by
  have h := Reg.byte_toNat r
  have hlt := r.isLt
  simp only [regOperand, h, hlt, dif_pos]

/-- A byte above 7 names no register. -/
theorem regOperand_out_of_range {b : Byte} (h : 7 < b.toNat) : regOperand b = .error ⟨.outOfRangeRegister, b.toNat⟩ := by
  simp only [regOperand, dif_neg (by omega : ¬ b.toNat < 8)]

/-- A byte either names the register it is the byte of, or is above 7. -/
theorem regOperand_cases (b : Byte) :
    (∃ r : Reg, b = Reg.byte r ∧ regOperand b = .ok r) ∨
    (7 < b.toNat ∧ regOperand b = .error ⟨.outOfRangeRegister, b.toNat⟩) := by
  by_cases h : b.toNat < 8
  · refine .inl ⟨⟨b.toNat, h⟩, ?_, ?_⟩
    · apply BitVec.eq_of_toNat_eq
      rw [Reg.byte_toNat]
    · simp only [regOperand, dif_pos h]
  · exact .inr ⟨by omega, regOperand_out_of_range (by omega)⟩

theorem regOperand_ok {b : Byte} {r : Reg} (h : regOperand b = .ok r) : b = Reg.byte r := by
  rcases regOperand_cases b with ⟨q, hb, hq⟩ | ⟨_, hb⟩
  · rw [h] at hq
    rw [hb, Except.ok.inj hq]
  · rw [h] at hb
    cases hb

@[simp] theorem regOperands2_byte (r q : Reg) : regOperands2 (Reg.byte r) (Reg.byte q) = .ok (r, q) := by
  simp [regOperands2, bind, Except.bind, pure, Except.pure]

/-! ### Memory access (R41, R42) -/

@[simp] theorem State.memRead_byte (s : State) (a : Byte) : s.memRead a.toNat = .ok (s.mem.read a.toNat) := by
  have := a.isLt
  simp only [State.memRead, if_pos (by omega : a.toNat ≤ 255)]

@[simp] theorem State.memWrite_byte (s : State) (a : Byte) (v : Byte) :
    s.memWrite a.toNat v = .ok (s.setMem (s.mem.write a.toNat v)) := by
  have := a.isLt
  simp only [State.memWrite, if_pos (by omega : a.toNat ≤ 255)]

theorem State.memRead_in_range {s : State} {a : Nat} (h : a ≤ 255) : s.memRead a = .ok (s.mem.read a) := by
  simp only [State.memRead, if_pos h]

theorem State.memRead_out_of_range {s : State} {a : Nat} (h : 255 < a) :
    s.memRead a = .error ⟨.outOfRangeAddress, a⟩ := by
  simp only [State.memRead, if_neg (by omega : ¬ a ≤ 255)]

/-! ### The stack pointer (R121) -/

theorem decSp_zero {sp : Byte} (h : sp = 0) : decSp sp = .error ⟨.outOfRangeAddress, -1⟩ := by
  simp only [decSp, if_pos h]

theorem decSp_pos {sp : Byte} (h : sp ≠ 0) : decSp sp = .ok (sp - 1) := by
  simp only [decSp, if_neg h]

theorem decSp_toNat {sp : Byte} (h : sp ≠ 0) : (sp - 1).toNat + 1 = sp.toNat := by
  have : sp.toNat ≠ 0 := fun h0 => h (BitVec.eq_of_toNat_eq (by simpa using h0))
  bv_omega

/-- A decrement that does not fault. -/
theorem decSp_ok {sp d : Byte} (h : decSp sp = .ok d) : sp ≠ 0 ∧ d.toNat + 1 = sp.toNat := by
  by_cases h0 : sp = 0
  · rw [decSp_zero h0] at h
    cases h
  · rw [decSp_pos h0] at h
    cases h
    exact ⟨h0, decSp_toNat h0⟩

/-- The multiplexer's decremented stack pointer is the one that did not fault (R44, R121). -/
theorem State.address_spMinus1 {s : State} {sp : Byte} (h : decSp (s.readReg SP) = .ok sp) :
    s.address .spMinus1 = sp.toNat := by
  have := (decSp_ok h).2
  simp only [State.address]
  omega

theorem incSp_top {sp : Byte} (h : sp.toNat = 255) : incSp sp = .error ⟨.outOfRangeAddress, 256⟩ := by
  simp only [incSp, h, if_pos]

theorem incSp_below {sp : Byte} (h : sp.toNat ≠ 255) : incSp sp = .ok (sp + 1) := by
  simp only [incSp, if_neg (by omega : ¬ sp.toNat + 1 = 256)]

theorem incSp_toNat {sp : Byte} (h : sp.toNat ≠ 255) : (sp + 1).toNat = sp.toNat + 1 := by
  bv_omega

/-- An increment that does not fault. -/
theorem incSp_ok {sp u : Byte} (h : incSp sp = .ok u) : sp.toNat ≠ 255 ∧ u.toNat = sp.toNat + 1 := by
  by_cases h0 : sp.toNat = 255
  · rw [incSp_top h0] at h
    cases h
  · rw [incSp_below h0] at h
    cases h
    exact ⟨h0, incSp_toNat h0⟩

/-! ### The other checks -/

theorem State.returnAddress_fits {s : State} (h : s.pc.toNat + 2 ≤ 255) :
    s.returnAddress = .ok (BitVec.ofNat 8 (s.pc.toNat + 2)) := by
  simp only [State.returnAddress, if_neg (by omega : ¬ 255 < s.pc.toNat + 2)]

theorem State.returnAddress_too_high {s : State} (h : 255 < s.pc.toNat + 2) :
    s.returnAddress = .error ⟨.outOfRangeAddress, (s.pc.toNat + 2 : Nat)⟩ := by
  simp only [State.returnAddress, if_pos h]

theorem State.returnAddress_ok {s : State} {v : Byte} (h : s.returnAddress = .ok v) : v.toNat = s.pc.toNat + 2 := by
  by_cases h0 : s.pc.toNat + 2 ≤ 255
  · rw [State.returnAddress_fits h0] at h
    cases h
    simp only [BitVec.toNat_ofNat]
    omega
  · rw [State.returnAddress_too_high (by omega)] at h
    cases h

theorem State.divisor_zero {s : State} {r : Reg} (h : s.readReg r = 0) : s.divisor r = .error ⟨.divideByZero, r.val⟩ := by
  simp only [State.divisor, if_pos h]

theorem State.divisor_nonzero {s : State} {r : Reg} (h : s.readReg r ≠ 0) : s.divisor r = .ok (s.readReg r) := by
  simp only [State.divisor, if_neg h]

/-! ### Taking a fault (R88) -/

@[simp] theorem State.complete_ok (s t : State) : s.complete (.ok t) = .next t := rfl

@[simp] theorem State.complete_error (s : State) (f : EngineFault) : s.complete (.error f) = .next (s.raiseFault f) := rfl

/-- Whatever an instruction's checks say, a next state results. -/
theorem State.complete_next (s : State) (r : Except EngineFault State) : ∃ t, s.complete r = .next t := by
  cases r <;> exact ⟨_, rfl⟩

/-- What taking a fault leaves, for an info HALT_INFO can hold. -/
theorem State.raiseFault_faultedFrom (s : State) (c : HaltCause) {n : Int} (h1 : -512 ≤ n) (h2 : n < 512) :
    s.FaultedFrom (s.raiseFault ⟨c, n⟩) c n where
  fsm := rfl
  haltCause := rfl
  haltPc := rfl
  haltInfo := by
    simp only [State.haltInfoInt, State.raiseFault_haltInfo, BitVec.toInt_ofInt]
    rw [Int.bmod_eq_of_le] <;> omega
  pc := rfl
  regs := fun _ _ => rfl
  mem := fun _ => rfl
  fl := rfl
  out := rfl
  cfg := rfl

end Sys2Proof.Machine
end

