-- ==== Sys2Proof/Laws/Exec.lean ====
section
/-! SUPPORT. What each instruction does to a state once its operands name registers, and what `exec` can do at all. -/

namespace Sys2Proof.Machine

/-! ### One equation per instruction and answer -/

theorem exec_hlt (s : State) : exec .hlt s = .next ((s.halt .hlt 0).advance 1) := rfl

theorem exec_ldi (r : Reg) (v : Byte) (s : State) :
    exec (.ldi (Reg.byte r) v) s = .next ((s.writeReg r v).advance 3) := by
  simp [exec, execLdi, bind, Except.bind, pure, Except.pure]

theorem exec_prn (r : Reg) (s : State) :
    exec (.prn (Reg.byte r)) s = .next ((s.emit (s.readReg r)).advance 2) := by
  simp [exec, execPrn, bind, Except.bind, pure, Except.pure]

theorem aluApply_bytes (f : Byte → Byte → Byte) (ra rb : Reg) (s : State) :
    aluApply f (Reg.byte ra) (Reg.byte rb) s =
      .next ((s.writeReg ra (f (s.readReg ra) (s.readReg rb))).advance 3) := by
  simp [aluApply, bind, Except.bind, pure, Except.pure]

theorem aluDivide_nonzero (f : Byte → Byte → Byte) (ra rb : Reg) {s : State} (h : s.readReg rb ≠ 0) :
    aluDivide f (Reg.byte ra) (Reg.byte rb) s =
      .next ((s.writeReg ra (f (s.readReg ra) (s.readReg rb))).advance 3) := by
  simp [aluDivide, bind, Except.bind, pure, Except.pure, State.divisor_nonzero h]

theorem aluDivide_zero (f : Byte → Byte → Byte) (ra rb : Reg) {s : State} (h : s.readReg rb = 0) :
    aluDivide f (Reg.byte ra) (Reg.byte rb) s = .next (s.raiseFault ⟨.divideByZero, rb.val⟩) := by
  simp [aluDivide, bind, Except.bind, State.divisor_zero h]

theorem exec_cmp (ra rb : Reg) (s : State) :
    exec (.cmp (Reg.byte ra) (Reg.byte rb)) s =
      .next ((s.setFl (cmpFlags (s.readReg ra) (s.readReg rb))).advance 3) := by
  simp [exec, execCmp, bind, Except.bind, pure, Except.pure]

theorem exec_not (r : Reg) (s : State) :
    exec (.not (Reg.byte r)) s = .next ((s.writeReg r (aluNot (s.readReg r))).advance 2) := by
  simp [exec, execNot, bind, Except.bind, pure, Except.pure]

/-- The state after the stack pointer is set to `sp` and `v` written there (R122, R124). -/
def State.pushed (s : State) (sp v : Byte) : State := (s.writeReg SP sp).setMem (s.mem.write sp.toNat v)

/-- The byte PUSH stores: the operand is read after the decrement (R122). -/
def State.pushValue (s : State) (sp : Byte) (r : Reg) : Byte := if r = SP then sp else s.readReg r

theorem exec_push (r : Reg) {s : State} {sp : Byte} (h : decSp (s.readReg SP) = .ok sp) :
    exec (.push (Reg.byte r)) s = .next ((s.pushed sp (s.pushValue sp r)).advance 2) := by
  simp [exec, execPush, bind, Except.bind, pure, Except.pure, h, State.address_spMinus1 h, State.pushed, State.pushValue]

theorem exec_push_fault (r : Reg) {s : State} {f : EngineFault} (h : decSp (s.readReg SP) = .error f) :
    exec (.push (Reg.byte r)) s = .next (s.raiseFault f) := by
  simp [exec, execPush, bind, Except.bind, h]

/-- The byte on top of the stack. -/
def State.top (s : State) : Byte := s.mem.read (s.readReg SP).toNat

/-- The stack pointer POP increments: the popped byte where the operand is R7 (R123). -/
def State.popBase (s : State) (r : Reg) : Byte := if r = SP then s.top else s.readReg SP

theorem exec_pop (r : Reg) {s : State} {sp : Byte} (h : incSp (s.popBase r) = .ok sp) :
    exec (.pop (Reg.byte r)) s = .next (((s.writeReg r s.top).writeReg SP sp).advance 2) := by
  simp only [State.popBase, State.top] at h
  simp [exec, execPop, State.address, bind, Except.bind, pure, Except.pure, h, State.top]

theorem exec_pop_fault (r : Reg) {s : State} {f : EngineFault} (h : incSp (s.popBase r) = .error f) :
    exec (.pop (Reg.byte r)) s = .next (s.raiseFault f) := by
  simp only [State.popBase, State.top] at h
  simp [exec, execPop, State.address, bind, Except.bind, h]

theorem exec_call (r : Reg) {s : State} {sp ret : Byte} (h : decSp (s.readReg SP) = .ok sp)
    (hret : s.returnAddress = .ok ret) :
    exec (.call (Reg.byte r)) s = .next ((s.pushed sp ret).setPc ((s.pushValue sp r).setWidth 9)) := by
  simp [exec, execCall, bind, Except.bind, pure, Except.pure, h, hret, State.address_spMinus1 h, State.pushed,
    State.pushValue]

theorem exec_call_empty (r : Reg) {s : State} {f : EngineFault} (h : decSp (s.readReg SP) = .error f) :
    exec (.call (Reg.byte r)) s = .next (s.raiseFault f) := by
  simp [exec, execCall, bind, Except.bind, h]

theorem exec_call_high (r : Reg) {s : State} {sp : Byte} {f : EngineFault} (h : decSp (s.readReg SP) = .ok sp)
    (hret : s.returnAddress = .error f) :
    exec (.call (Reg.byte r)) s = .next (s.raiseFault f) := by
  simp [exec, execCall, bind, Except.bind, h, hret]

theorem exec_ret {s : State} {sp : Byte} (h : incSp (s.readReg SP) = .ok sp) :
    exec .ret s = .next ((s.writeReg SP sp).setPc (s.top.setWidth 9)) := by
  simp [exec, execRet, State.address, bind, Except.bind, pure, Except.pure, h, State.top]

theorem exec_ret_fault {s : State} {f : EngineFault} (h : incSp (s.readReg SP) = .error f) :
    exec .ret s = .next (s.raiseFault f) := by
  simp [exec, execRet, State.address, bind, Except.bind, h]

/-! ### What exec can do -/

/-- The ALU function of an instruction that has the ALU's form, by its rule (R110). -/
def aluFn : Opcode → Option (Byte → Byte → Byte)
  | .add => some aluAdd
  | .mul => some aluMul
  | .sub => some aluSub
  | .div => some aluDiv
  | .mod => some aluMod
  | .and => some aluAnd
  | .or => some aluOr
  | .xor => some aluXor
  | .shl => some aluShl
  | .shr => some aluShr
  | _ => none

/-- The effect of an instruction that raises no fault: one case for each form of instruction. -/
inductive Effect (s : State) : Instr → State → Prop
  | hlt : Effect s .hlt ((s.halt .hlt 0).advance 1)
  | ldi (r : Reg) (v : Byte) : Effect s (.ldi (Reg.byte r) v) ((s.writeReg r v).advance 3)
  | prn (r : Reg) : Effect s (.prn (Reg.byte r)) ((s.emit (s.readReg r)).advance 2)
  | alu (i : Instr) (f : Byte → Byte → Byte) (ra rb : Reg) (hf : aluFn i.opcode = some f)
      (ho : i.operands = [Reg.byte ra, Reg.byte rb])
      (hd : i.opcode = .div ∨ i.opcode = .mod → s.readReg rb ≠ 0) :
      Effect s i ((s.writeReg ra (f (s.readReg ra) (s.readReg rb))).advance 3)
  | cmp (ra rb : Reg) : Effect s (.cmp (Reg.byte ra) (Reg.byte rb))
      ((s.setFl (cmpFlags (s.readReg ra) (s.readReg rb))).advance 3)
  | not (r : Reg) : Effect s (.not (Reg.byte r)) ((s.writeReg r (aluNot (s.readReg r))).advance 2)
  | push (r : Reg) (sp : Byte) (h : decSp (s.readReg SP) = .ok sp) :
      Effect s (.push (Reg.byte r)) ((s.pushed sp (s.pushValue sp r)).advance 2)
  | pop (r : Reg) (sp : Byte) (h : incSp (s.popBase r) = .ok sp) :
      Effect s (.pop (Reg.byte r)) (((s.writeReg r s.top).writeReg SP sp).advance 2)
  | call (r : Reg) (sp ret : Byte) (h : decSp (s.readReg SP) = .ok sp) (hret : s.returnAddress = .ok ret) :
      Effect s (.call (Reg.byte r)) ((s.pushed sp ret).setPc ((s.pushValue sp r).setWidth 9))
  | ret (sp : Byte) (h : incSp (s.readReg SP) = .ok sp) :
      Effect s .ret ((s.writeReg SP sp).setPc (s.top.setWidth 9))

/-- The faults an instruction's own checks raise (R85 item 2, R121, R124, R143, R144). -/
inductive Raises (s : State) (i : Instr) : EngineFault → Prop
  | register (b : Byte) (hb : b ∈ i.regOperands) (h : 7 < b.toNat) : Raises s i ⟨.outOfRangeRegister, b.toNat⟩
  | underflow (hi : i.opcode = .push ∨ i.opcode = .call) (h : s.readReg SP = 0) :
      Raises s i ⟨.outOfRangeAddress, -1⟩
  | overflow (hi : i.opcode = .pop ∨ i.opcode = .ret) : Raises s i ⟨.outOfRangeAddress, 256⟩
  | returnAddress (hi : i.opcode = .call) (h : 255 < s.pc.toNat + 2) :
      Raises s i ⟨.outOfRangeAddress, (s.pc.toNat + 2 : Nat)⟩
  | zeroDivisor (hi : i.opcode = .div ∨ i.opcode = .mod) (rb : Reg) (ho : i.operands[1]? = some (Reg.byte rb))
      (h : s.readReg rb = 0) : Raises s i ⟨.divideByZero, rb.val⟩

/-- The first register operand of two that is out of range is the fault of format RR. -/
theorem regOperands2_cases (a b : Byte) :
    (∃ ra rb : Reg, a = Reg.byte ra ∧ b = Reg.byte rb) ∨
    (∃ c, c ∈ [a, b] ∧ 7 < c.toNat ∧ regOperands2 a b = .error ⟨.outOfRangeRegister, c.toNat⟩) := by
  rcases regOperand_cases a with ⟨ra, ha, hra⟩ | ⟨ha, hra⟩
  · rcases regOperand_cases b with ⟨rb, hb, -⟩ | ⟨hb, hrb⟩
    · exact .inl ⟨ra, rb, ha, hb⟩
    · exact .inr ⟨b, by simp, hb, by simp [regOperands2, hra, hrb, bind, Except.bind]⟩
  · exact .inr ⟨a, by simp, ha, by simp [regOperands2, hra, bind, Except.bind]⟩

theorem aluApply_cases (f : Byte → Byte → Byte) (a b : Byte) (s : State) :
    (∃ ra rb : Reg, a = Reg.byte ra ∧ b = Reg.byte rb ∧
      aluApply f a b s = .next ((s.writeReg ra (f (s.readReg ra) (s.readReg rb))).advance 3)) ∨
    (∃ c, c ∈ [a, b] ∧ 7 < c.toNat ∧
      aluApply f a b s = .next (s.raiseFault ⟨.outOfRangeRegister, c.toNat⟩)) := by
  rcases regOperands2_cases a b with ⟨ra, rb, rfl, rfl⟩ | ⟨c, hc, h7, h⟩
  · exact .inl ⟨ra, rb, rfl, rfl, aluApply_bytes f ra rb s⟩
  · exact .inr ⟨c, hc, h7, by simp [aluApply, h, bind, Except.bind]⟩

theorem aluDivide_cases (f : Byte → Byte → Byte) (a b : Byte) (s : State) :
    (∃ ra rb : Reg, a = Reg.byte ra ∧ b = Reg.byte rb ∧ s.readReg rb ≠ 0 ∧
      aluDivide f a b s = .next ((s.writeReg ra (f (s.readReg ra) (s.readReg rb))).advance 3)) ∨
    (∃ rb : Reg, b = Reg.byte rb ∧ s.readReg rb = 0 ∧
      aluDivide f a b s = .next (s.raiseFault ⟨.divideByZero, rb.val⟩)) ∨
    (∃ c, c ∈ [a, b] ∧ 7 < c.toNat ∧
      aluDivide f a b s = .next (s.raiseFault ⟨.outOfRangeRegister, c.toNat⟩)) := by
  rcases regOperands2_cases a b with ⟨ra, rb, rfl, rfl⟩ | ⟨c, hc, h7, h⟩
  · by_cases h0 : s.readReg rb = 0
    · exact .inr (.inl ⟨rb, rfl, h0, aluDivide_zero f ra rb h0⟩)
    · exact .inl ⟨ra, rb, rfl, rfl, h0, aluDivide_nonzero f ra rb h0⟩
  · exact .inr (.inr ⟨c, hc, h7, by simp [aluDivide, h, bind, Except.bind]⟩)

/-- What exec can do: have the instruction's effect, or raise one of its faults. -/
theorem exec_cases (i : Instr) (s : State) :
    (∃ t, exec i s = .next t ∧ Effect s i t) ∨
    (∃ f, exec i s = .next (s.raiseFault f) ∧ Raises s i f) := by
  have alu : ∀ (i : Instr) (f : Byte → Byte → Byte) (a b : Byte), exec i s = aluApply f a b s →
      aluFn i.opcode = some f → i.operands = [a, b] → i.regOperands = [a, b] →
      ¬ (i.opcode = .div ∨ i.opcode = .mod) →
      (∃ t, exec i s = .next t ∧ Effect s i t) ∨ (∃ f, exec i s = .next (s.raiseFault f) ∧ Raises s i f) := by
    intro i f a b he hf ho hr hd
    rcases aluApply_cases f a b s with ⟨ra, rb, rfl, rfl, h⟩ | ⟨c, hc, h7, h⟩
    · exact .inl ⟨_, he.trans h, .alu i f ra rb hf ho fun h => absurd h hd⟩
    · exact .inr ⟨_, he.trans h, .register c (hr ▸ hc) h7⟩
  have divide : ∀ (i : Instr) (f : Byte → Byte → Byte) (a b : Byte), exec i s = aluDivide f a b s →
      aluFn i.opcode = some f → i.operands = [a, b] → i.regOperands = [a, b] →
      i.opcode = .div ∨ i.opcode = .mod →
      (∃ t, exec i s = .next t ∧ Effect s i t) ∨ (∃ f, exec i s = .next (s.raiseFault f) ∧ Raises s i f) := by
    intro i f a b he hf ho hr hd
    rcases aluDivide_cases f a b s with ⟨ra, rb, rfl, rfl, h0, h⟩ | ⟨rb, rfl, h0, h⟩ | ⟨c, hc, h7, h⟩
    · exact .inl ⟨_, he.trans h, .alu i f ra rb hf ho fun _ => h0⟩
    · exact .inr ⟨_, he.trans h, .zeroDivisor hd rb (by simp [ho]) h0⟩
    · exact .inr ⟨_, he.trans h, .register c (hr ▸ hc) h7⟩
  cases i with
  | hlt => exact .inl ⟨_, exec_hlt s, .hlt⟩
  | ldi a v =>
    rcases regOperand_cases a with ⟨r, rfl, -⟩ | ⟨h7, h⟩
    · exact .inl ⟨_, exec_ldi r v s, .ldi r v⟩
    · exact .inr ⟨_, by simp [exec, execLdi, h, bind, Except.bind], .register a (by simp [Instr.regOperands]) h7⟩
  | prn a =>
    rcases regOperand_cases a with ⟨r, rfl, -⟩ | ⟨h7, h⟩
    · exact .inl ⟨_, exec_prn r s, .prn r⟩
    · exact .inr ⟨_, by simp [exec, execPrn, h, bind, Except.bind], .register a (by simp [Instr.regOperands]) h7⟩
  | add a b => exact alu _ aluAdd a b rfl rfl rfl rfl (by simp [Instr.opcode])
  | mul a b => exact alu _ aluMul a b rfl rfl rfl rfl (by simp [Instr.opcode])
  | push a =>
    rcases regOperand_cases a with ⟨r, rfl, -⟩ | ⟨h7, h⟩
    · by_cases h0 : s.readReg SP = 0
      · exact .inr ⟨_, exec_push_fault r (decSp_zero h0), .underflow (.inl rfl) h0⟩
      · exact .inl ⟨_, exec_push r (decSp_pos h0), .push r _ (decSp_pos h0)⟩
    · exact .inr ⟨_, by simp [exec, execPush, h, bind, Except.bind], .register a (by simp [Instr.regOperands]) h7⟩
  | pop a =>
    rcases regOperand_cases a with ⟨r, rfl, -⟩ | ⟨h7, h⟩
    · by_cases h0 : (s.popBase r).toNat = 255
      · exact .inr ⟨_, exec_pop_fault r (incSp_top h0), .overflow (.inl rfl)⟩
      · exact .inl ⟨_, exec_pop r (incSp_below h0), .pop r _ (incSp_below h0)⟩
    · exact .inr ⟨_, by simp [exec, execPop, h, bind, Except.bind], .register a (by simp [Instr.regOperands]) h7⟩
  | call a =>
    rcases regOperand_cases a with ⟨r, rfl, -⟩ | ⟨h7, h⟩
    · by_cases h0 : s.readReg SP = 0
      · exact .inr ⟨_, exec_call_empty r (decSp_zero h0), .underflow (.inr rfl) h0⟩
      · by_cases hpc : s.pc.toNat + 2 ≤ 255
        · exact .inl ⟨_, exec_call r (decSp_pos h0) (State.returnAddress_fits hpc),
            .call r _ _ (decSp_pos h0) (State.returnAddress_fits hpc)⟩
        · exact .inr ⟨_, exec_call_high r (decSp_pos h0) (State.returnAddress_too_high (by omega)),
            .returnAddress rfl (by omega)⟩
    · exact .inr ⟨_, by simp [exec, execCall, h, bind, Except.bind], .register a (by simp [Instr.regOperands]) h7⟩
  | ret =>
    by_cases h0 : (s.readReg SP).toNat = 255
    · exact .inr ⟨_, exec_ret_fault (incSp_top h0), .overflow (.inr rfl)⟩
    · exact .inl ⟨_, exec_ret (incSp_below h0), .ret _ (incSp_below h0)⟩
  | sub a b => exact alu _ aluSub a b rfl rfl rfl rfl (by simp [Instr.opcode])
  | div a b => exact divide _ aluDiv a b rfl rfl rfl rfl (.inl rfl)
  | mod a b => exact divide _ aluMod a b rfl rfl rfl rfl (.inr rfl)
  | cmp a b =>
    rcases regOperands2_cases a b with ⟨ra, rb, rfl, rfl⟩ | ⟨c, hc, h7, h⟩
    · exact .inl ⟨_, exec_cmp ra rb s, .cmp ra rb⟩
    · exact .inr ⟨_, by simp [exec, execCmp, h, bind, Except.bind], .register c (by simpa [Instr.regOperands] using hc) h7⟩
  | and a b => exact alu _ aluAnd a b rfl rfl rfl rfl (by simp [Instr.opcode])
  | or a b => exact alu _ aluOr a b rfl rfl rfl rfl (by simp [Instr.opcode])
  | xor a b => exact alu _ aluXor a b rfl rfl rfl rfl (by simp [Instr.opcode])
  | not a =>
    rcases regOperand_cases a with ⟨r, rfl, -⟩ | ⟨h7, h⟩
    · exact .inl ⟨_, exec_not r s, .not r⟩
    · exact .inr ⟨_, by simp [exec, execNot, h, bind, Except.bind], .register a (by simp [Instr.regOperands]) h7⟩
  | shl a b => exact alu _ aluShl a b rfl rfl rfl rfl (by simp [Instr.opcode])
  | shr a b => exact alu _ aluShr a b rfl rfl rfl rfl (by simp [Instr.opcode])

/-- exec answers a next state on every instruction and state. -/
theorem exec_next (i : Instr) (s : State) : ∃ t, exec i s = .next t := by
  rcases exec_cases i s with ⟨t, h, -⟩ | ⟨f, h, -⟩ <;> exact ⟨_, h⟩

/-- The inversion lemma: a next state is the effect or a fault. -/
theorem exec_inv {i : Instr} {s t : State} (h : exec i s = .next t) :
    Effect s i t ∨ ∃ f, t = s.raiseFault f ∧ Raises s i f := by
  rcases exec_cases i s with ⟨u, hu, he⟩ | ⟨f, hf, hr⟩
  · rw [h] at hu
    exact .inl (Host.Outcome.next.inj hu ▸ he)
  · rw [h] at hf
    exact .inr ⟨f, Host.Outcome.next.inj hf, hr⟩

end Sys2Proof.Machine
end

