-- ==== Sys2Proof/Laws/Step.lean ====
section
/-! SUPPORT. What decoding, fetching and a step can do. -/

namespace Sys2Proof

/-- The decoder of R69 as a relation: the byte is a row's byte, and the row exists in the configuration. -/
theorem decodeOpcode_eq_some {ext : Bool} {op : Byte} {c : Opcode} :
    decodeOpcode ext op = some c ↔ op = c.byte ∧ (c.isExt = true → ext = true) := by
  constructor
  · intro h
    simp only [decodeOpcode] at h
    split at h
    · rename_i hd
      cases h
      have hb := List.find?_some hd
      have hm := List.mem_of_find?_eq_some hd
      refine ⟨(eq_of_beq hb).symm, fun he => ?_⟩
      revert he hm
      cases c <;> simp [baseOpcodes, Opcode.isExt]
    · split at h
      · exact ⟨(eq_of_beq (List.find?_some h :)).symm, fun _ => ‹_›⟩
      · cases h
  · rintro ⟨rfl, he⟩
    revert he
    cases ext <;> cases c <;> decide

@[simp] theorem Opcode.build_opcode (c : Opcode) (a b : Byte) : (c.build a b).opcode = c := by
  cases c <;> rfl

theorem Opcode.build_operands (c : Opcode) (a b : Byte) : (c.build a b).operands = [a, b].take (c.len - 1) := by
  cases c <;> rfl

theorem Opcode.len_pos (c : Opcode) : 1 ≤ c.len ∧ c.len ≤ 3 := by
  cases c <;> decide

/-- Every instruction is built from its row and its operand bytes. -/
theorem Instr.build_eq (i : Instr) : ∃ a b, i = i.opcode.build a b ∧ i.operands = [a, b].take (i.len - 1) := by
  cases i with
  | hlt => exact ⟨0, 0, rfl, rfl⟩
  | ret => exact ⟨0, 0, rfl, rfl⟩
  | prn a => exact ⟨a, 0, rfl, rfl⟩
  | push a => exact ⟨a, 0, rfl, rfl⟩
  | pop a => exact ⟨a, 0, rfl, rfl⟩
  | call a => exact ⟨a, 0, rfl, rfl⟩
  | not a => exact ⟨a, 0, rfl, rfl⟩
  | ldi a b => exact ⟨a, b, rfl, rfl⟩
  | add a b => exact ⟨a, b, rfl, rfl⟩
  | mul a b => exact ⟨a, b, rfl, rfl⟩
  | sub a b => exact ⟨a, b, rfl, rfl⟩
  | div a b => exact ⟨a, b, rfl, rfl⟩
  | mod a b => exact ⟨a, b, rfl, rfl⟩
  | cmp a b => exact ⟨a, b, rfl, rfl⟩
  | and a b => exact ⟨a, b, rfl, rfl⟩
  | or a b => exact ⟨a, b, rfl, rfl⟩
  | xor a b => exact ⟨a, b, rfl, rfl⟩
  | shl a b => exact ⟨a, b, rfl, rfl⟩
  | shr a b => exact ⟨a, b, rfl, rfl⟩

/-- What decoding fetched bytes answers, by cases (R84, R85 item 1). -/
theorem decodeFetched_cases (ext : Bool) (op : Byte) (a b : Option Byte) :
    (decodeOpcode ext op = none ∧ decodeFetched ext op a b = .error (.unknownOpcode op)) ∨
    ∃ c, decodeOpcode ext op = some c ∧
      ((2 ≤ c.len ∧ a = none ∧ decodeFetched ext op a b = .error (.missingOperand 1)) ∨
       (3 ≤ c.len ∧ a ≠ none ∧ b = none ∧ decodeFetched ext op a b = .error (.missingOperand 2)) ∨
       ((2 ≤ c.len → a ≠ none) ∧ (3 ≤ c.len → b ≠ none) ∧
        decodeFetched ext op a b = .ok (c.build (a.getD 0) (b.getD 0)))) := by
  rcases h : decodeOpcode ext op with _ | c
  · exact .inl ⟨rfl, by simp [decodeFetched, h]⟩
  · refine .inr ⟨c, rfl, ?_⟩
    by_cases h1 : 2 ≤ c.len ∧ a = none
    · exact .inl ⟨h1.1, h1.2, by simp [decodeFetched, h, h1]⟩
    · by_cases h2 : 3 ≤ c.len ∧ b = none
      · refine .inr (.inl ⟨h2.1, fun ha => h1 ⟨by omega, ha⟩, h2.2, ?_⟩)
        simp only [decodeFetched, h, if_neg h1, if_pos h2]
      · refine .inr (.inr ⟨fun hl ha => h1 ⟨hl, ha⟩, fun hl hb => h2 ⟨hl, hb⟩, ?_⟩)
        simp only [decodeFetched, h, if_neg h1, if_neg h2]

end Sys2Proof

namespace Sys2Proof.Machine

/-- The byte at `pc + k`, or ⊥ past address 255. -/
def State.byteAt (s : State) (k : Nat) : Option Byte :=
  if s.pc.toNat + k ≤ 255 then some (s.mem.read (s.pc.toNat + k)) else none

theorem State.prefetch_in_range {s : State} {src : AddressSource} (h : s.address src ≤ 255) :
    s.prefetch src = .ok (some (s.mem.read (s.address src))) := by
  simp only [State.prefetch, if_pos h]

theorem State.prefetch_ignore {s : State} {src : AddressSource} (h : 255 < s.address src)
    (hc : s.cfg.prefetchOor = .ignore) : s.prefetch src = .ok none := by
  simp only [State.prefetch, if_neg (by omega : ¬ s.address src ≤ 255), hc]

theorem State.prefetch_fault {s : State} {src : AddressSource} (h : 255 < s.address src)
    (hc : s.cfg.prefetchOor = .fault) : s.prefetch src = .error ⟨.outOfRangeAddress, s.address src⟩ := by
  simp only [State.prefetch, if_neg (by omega : ¬ s.address src ≤ 255), hc]

theorem State.prefetch_ok {s : State} {src : AddressSource} {k : Nat} (hk : s.address src = s.pc.toNat + k)
    (h : s.pc.toNat + k ≤ 255 ∨ s.cfg.prefetchOor = .ignore) : s.prefetch src = .ok (s.byteAt k) := by
  by_cases hle : s.address src ≤ 255
  · rw [State.prefetch_in_range hle, hk, State.byteAt, if_pos (by omega)]
  · rw [State.prefetch_ignore (by omega) (h.resolve_left (by omega)), State.byteAt, if_neg (by omega)]

/-- Phase 1 out of range (R82). -/
theorem State.fetch_pc_high {s : State} (h : 255 < s.pc.toNat) : s.fetch = .error ⟨.outOfRangeAddress, s.pc.toNat⟩ := by
  simp [State.fetch, State.address, State.memRead_out_of_range h, bind, Except.bind]

/-- Phase 2 out of range under `PREFETCH_OOR = fault` (R83): the first address past memory is 256. -/
theorem State.fetch_prefetch_fault {s : State} (h1 : 254 ≤ s.pc.toNat) (h2 : s.pc.toNat ≤ 255)
    (hc : s.cfg.prefetchOor = .fault) : s.fetch = .error ⟨.outOfRangeAddress, 256⟩ := by
  have p0 : s.memRead (s.address .pc) = .ok (s.mem.read s.pc.toNat) := State.memRead_in_range h2
  by_cases h : s.pc.toNat = 254
  · have h256 : s.address .pcPlus2 = 256 := by simp only [State.address, h]
    have p1 := State.prefetch_in_range (s := s) (src := .pcPlus1) (by simp only [State.address]; omega)
    have p2 := State.prefetch_fault (s := s) (src := .pcPlus2) (by omega) hc
    rw [h256] at p2
    simp only [State.fetch, p0, p1, p2, bind, Except.bind]
    rfl
  · have h256 : s.address .pcPlus1 = 256 := by simp only [State.address]; omega
    have p1 := State.prefetch_fault (s := s) (src := .pcPlus1) (by omega) hc
    rw [h256] at p1
    simp only [State.fetch, p0, p1, bind, Except.bind]
    rfl

/-- Phases 1 and 2 pass: the rest is decoding. -/
theorem State.fetch_decodes {s : State} (h : s.pc.toNat ≤ 255)
    (hc : s.pc.toNat ≤ 253 ∨ s.cfg.prefetchOor = .ignore) :
    s.fetch = match decodeFetched s.cfg.extAlu (s.mem.read s.pc.toNat) (s.byteAt 1) (s.byteAt 2) with
      | .error e => .error (s.decodeFault e)
      | .ok i => .ok i := by
  have p0 : s.memRead (s.address .pc) = .ok (s.mem.read s.pc.toNat) := State.memRead_in_range h
  have p1 := State.prefetch_ok (s := s) (src := .pcPlus1) (k := 1) rfl (hc.imp (by omega) id)
  have p2 := State.prefetch_ok (s := s) (src := .pcPlus2) (k := 2) rfl (hc.imp (by omega) id)
  cases hd : decodeFetched s.cfg.extAlu (s.mem.read s.pc.toNat) (s.byteAt 1) (s.byteAt 2) <;>
    simp only [State.fetch, p0, p1, p2, hd, bind, Except.bind]

/-- Fetching an instruction: what was read, and where (R82, R83, R84, R85 item 1). -/
theorem State.fetch_ok {s : State} {i : Instr} (h : s.fetch = .ok i) :
    s.pc.toNat + i.len ≤ 256 ∧ s.mem.read s.pc.toNat = i.opcode.byte ∧
    (i.opcode.isExt = true → s.cfg.extAlu = true) ∧
    (∀ k b, i.operands[k]? = some b → s.mem.read (s.pc.toNat + (k + 1)) = b) ∧
    (s.pc.toNat ≤ 253 ∨ s.cfg.prefetchOor = .ignore) := by
  by_cases hpc : s.pc.toNat ≤ 255
  swap
  · rw [State.fetch_pc_high (by omega)] at h
    cases h
  have hc : s.pc.toNat ≤ 253 ∨ s.cfg.prefetchOor = .ignore := by
    by_cases h1 : s.pc.toNat ≤ 253
    · exact .inl h1
    · refine .inr ?_
      rcases hp : s.cfg.prefetchOor with _ | _
      · rw [State.fetch_prefetch_fault (by omega) hpc hp] at h
        cases h
      · rfl
  rw [State.fetch_decodes hpc hc] at h
  rcases decodeFetched_cases s.cfg.extAlu (s.mem.read s.pc.toNat) (s.byteAt 1) (s.byteAt 2) with
    ⟨-, hd⟩ | ⟨c, hc', ⟨-, -, hd⟩ | ⟨-, -, -, hd⟩ | ⟨ha, hb, hd⟩⟩ <;> rw [hd] at h <;> cases h
  obtain ⟨hbyte, hext⟩ := decodeOpcode_eq_some.mp hc'
  have hl := c.len_pos
  have h1 : 2 ≤ c.len → s.pc.toNat + 1 ≤ 255 := fun hl => by
    by_contra hn
    exact ha hl (by simp only [State.byteAt, if_neg hn])
  have h2 : 3 ≤ c.len → s.pc.toNat + 2 ≤ 255 := fun hl => by
    by_contra hn
    exact hb hl (by simp only [State.byteAt, if_neg hn])
  refine ⟨?_, by simpa using hbyte, by simpa using hext, ?_, hc⟩
  · simp only [Instr.len, Opcode.build_opcode]
    omega
  · intro k b hk
    rw [Opcode.build_operands] at hk
    rcases (by omega : c.len = 1 ∨ c.len = 2 ∨ c.len = 3) with hl | hl | hl
    · simp [hl] at hk
    · have := h1 (by omega)
      rcases k with _ | k <;> simp [hl] at hk
      rw [← hk]
      simp [State.byteAt, this]
    · have := h2 (by omega)
      rcases k with _ | _ | k <;> simp [hl] at hk
      · rw [← hk]
        simp [State.byteAt, (by omega : s.pc.toNat + 1 ≤ 255)]
      · rw [← hk]
        simp [State.byteAt, this]

/-- The faults of phases 1 to 3 (R82 to R85 item 1). -/
theorem State.fetch_error {s : State} {f : EngineFault} (h : s.fetch = .error f) :
    (255 < s.pc.toNat ∧ f = ⟨.outOfRangeAddress, s.pc.toNat⟩) ∨
    (254 ≤ s.pc.toNat ∧ s.pc.toNat ≤ 255 ∧ f = ⟨.outOfRangeAddress, 256⟩) ∨
    (s.pc.toNat ≤ 255 ∧ decodeOpcode s.cfg.extAlu (s.mem.read s.pc.toNat) = none ∧
      f = ⟨.unknownOpcode, (s.mem.read s.pc.toNat).toNat⟩) := by
  by_cases hpc : s.pc.toNat ≤ 255
  swap
  · rw [State.fetch_pc_high (by omega)] at h
    exact .inl ⟨by omega, (Except.error.inj h).symm⟩
  by_cases hc : s.pc.toNat ≤ 253 ∨ s.cfg.prefetchOor = .ignore
  swap
  · have hp : s.cfg.prefetchOor = .fault := by
      rcases hp : s.cfg.prefetchOor with _ | _
      · rfl
      · exact absurd (.inr hp) hc
    have h254 : 254 ≤ s.pc.toNat := by
      by_contra hn
      exact hc (.inl (by omega))
    rw [State.fetch_prefetch_fault h254 hpc hp] at h
    exact .inr (.inl ⟨h254, hpc, (Except.error.inj h).symm⟩)
  rw [State.fetch_decodes hpc hc] at h
  have bot : ∀ k, s.byteAt k = none → 255 < s.pc.toNat + k := fun k hk => by
    by_contra hn
    simp [State.byteAt, (by omega : s.pc.toNat + k ≤ 255)] at hk
  have notBot : ∀ k, s.byteAt k ≠ none → s.pc.toNat + k ≤ 255 := fun k hk => by
    by_contra hn
    exact hk (by simp only [State.byteAt, if_neg hn])
  rcases decodeFetched_cases s.cfg.extAlu (s.mem.read s.pc.toNat) (s.byteAt 1) (s.byteAt 2) with
    ⟨hn, hd⟩ | ⟨c, hc', ⟨-, ha, hd⟩ | ⟨-, ha, hb, hd⟩ | ⟨-, -, hd⟩⟩ <;> rw [hd] at h <;> cases h
  · exact .inr (.inr ⟨hpc, hn, rfl⟩)
  · have := bot 1 ha
    exact .inr (.inl ⟨by omega, hpc, by simp [State.decodeFault, (by omega : s.pc.toNat = 255)]⟩)
  · have := bot 2 hb
    have := notBot 1 ha
    exact .inr (.inl ⟨by omega, hpc, by simp [State.decodeFault, (by omega : s.pc.toNat = 254)]⟩)

/-! ### The step -/

theorem step_halted {s : State} (h : s.fsm = .halted) : step s = .fault .halted := by
  simp only [step, h]

theorem step_fetch_error {s : State} (h : s.fsm = .running) {f : EngineFault} (hf : s.fetch = .error f) :
    step s = .next (s.raiseFault f) := by
  simp only [step, h, hf]

theorem step_fetch_ok {s : State} (h : s.fsm = .running) {i : Instr} (hi : s.fetch = .ok i) :
    step s = exec i s := by
  simp only [step, h, hi]

/-- The inversion lemma: what a step that answers a next state did. -/
theorem step_inv {s t : State} (h : step s = .next t) :
    s.fsm = .running ∧
    ((∃ f, s.fetch = .error f ∧ t = s.raiseFault f) ∨
     (∃ i f, s.fetch = .ok i ∧ Raises s i f ∧ t = s.raiseFault f) ∨
     (∃ i, s.fetch = .ok i ∧ Effect s i t)) := by
  rcases hf : s.fsm with _ | _
  swap
  · rw [step_halted hf] at h
    cases h
  refine ⟨rfl, ?_⟩
  rcases hx : s.fetch with f | i
  · rw [step_fetch_error hf hx] at h
    exact .inl ⟨f, rfl, (Host.Outcome.next.inj h).symm⟩
  · rw [step_fetch_ok hf hx] at h
    rcases exec_inv h with he | ⟨f, ht, hr⟩
    · exact .inr (.inr ⟨i, rfl, he⟩)
    · exact .inr (.inl ⟨i, f, rfl, hr, ht⟩)

end Sys2Proof.Machine
end

