-- ==== Sys2Proof/Tests/Slice0.lean ====
section
/-! SUPPORT. Small tests: ill-formed instructions, words written out from the opcode maps, one or two steps per instruction
with results from 95_test_vectors.md, and a witness for the hypotheses of each statement. -/

namespace Sys2Proof.Tests

open Sys2Proof.Machine

/-! ### WellFormed refuses each kind of ill-formed instruction -/

theorem test_wellFormed_accepts : Instr.wellFormed true (.div 7 0) = true := by decide
theorem test_wellFormed_refuses_first_register : Instr.wellFormed true (.add 8 0) = false := by decide
theorem test_wellFormed_refuses_second_register : Instr.wellFormed true (.add 0 255) = false := by decide
theorem test_wellFormed_immediate_is_no_register : Instr.wellFormed false (.ldi 0 255) = true := by decide
theorem test_wellFormed_refuses_absent_extension : Instr.wellFormed false (.div 7 0) = false := by decide

/-! ### Decoding: each opcode's bits from R64 and R66, bit 7 first -/

theorem test_decode_hlt : decode false [0b00000001] = .ok .hlt := by decide
theorem test_decode_ldi : decode false [0b10000010, 0b00000000, 0b00001000] = .ok (.ldi 0 8) := by decide
theorem test_decode_prn : decode false [0b01000111, 0b00000000] = .ok (.prn 0) := by decide
theorem test_decode_add : decode false [0b10100000, 0b00000010, 0b00000101] = .ok (.add 2 5) := by decide
theorem test_decode_mul : decode false [0b10100010, 0b00000000, 0b00000001] = .ok (.mul 0 1) := by decide
theorem test_decode_push : decode false [0b01000101, 0b00000111] = .ok (.push 7) := by decide
theorem test_decode_pop : decode false [0b01000110, 0b00000001] = .ok (.pop 1) := by decide
theorem test_decode_call : decode false [0b01010000, 0b00000001] = .ok (.call 1) := by decide
theorem test_decode_ret : decode false [0b00010001] = .ok .ret := by decide
theorem test_decode_sub : decode true [0b10100001, 0b00000010, 0b00000101] = .ok (.sub 2 5) := by decide
theorem test_decode_div : decode true [0b10100011, 0b00000010, 0b00000101] = .ok (.div 2 5) := by decide
theorem test_decode_mod : decode true [0b10100100, 0b00000010, 0b00000101] = .ok (.mod 2 5) := by decide
theorem test_decode_cmp : decode true [0b10100111, 0b00000010, 0b00000101] = .ok (.cmp 2 5) := by decide
theorem test_decode_and : decode true [0b10101000, 0b00000010, 0b00000101] = .ok (.and 2 5) := by decide
theorem test_decode_or : decode true [0b10101010, 0b00000010, 0b00000101] = .ok (.or 2 5) := by decide
theorem test_decode_xor : decode true [0b10101011, 0b00000010, 0b00000101] = .ok (.xor 2 5) := by decide
theorem test_decode_not : decode true [0b01101001, 0b00000010] = .ok (.not 2) := by decide
theorem test_decode_shl : decode true [0b10101100, 0b00000010, 0b00000101] = .ok (.shl 2 5) := by decide
theorem test_decode_shr : decode true [0b10101101, 0b00000010, 0b00000101] = .ok (.shr 2 5) := by decide
/-- How many of the first `n` opcode bytes are unknown. -/
def unknownCount (ext : Bool) : Nat → Nat
  | 0 => 0
  | n + 1 => if decodeOpcode ext (BitVec.ofNat 8 n) = none then unknownCount ext n + 1 else unknownCount ext n

/-- R67: 247 unknown opcode bytes without the extension, 237 with it. -/
theorem test_unknown_opcodes : unknownCount false 256 = 247 ∧ unknownCount true 256 = 237 := by decide +kernel
theorem test_decodeTableWord : decodeTableWord 24 0x050aac = some (.shl 10 5) ∧ decodeTableWord 8 0xffffff01 = some .hlt ∧
    decodeTableWord 8 0 = none := by decide

/-! ### Small states -/

/-- A state after reset with a PC, some registers and some runs of bytes. -/
def small (ext : Bool) (p : PrefetchOor) (pc : Nat) (regs : List (Reg × Byte)) (cells : List (Nat × List Byte)) : State :=
  let s0 := (State.resetWith { spInit := 0xF4, prefetchOor := p, extAlu := ext }).setPc (BitVec.ofNat 9 pc)
  let s1 := regs.foldl (fun s r => s.writeReg r.1 r.2) s0
  cells.foldl (fun s c => s.setMem (s.mem.writeBytes c.1 c.2)) s1

/-- One step answers a next state that a check accepts. -/
def after (s : State) (check : State → Bool) : Bool :=
  match step s with
  | .next t => check t
  | .fault _ => false
  | .refused _ => false

/-- `fault C(i)` of 95_test_vectors.md: the halt record, and nothing else changed. -/
def faultC (s t : State) (code : BitVec 3) (info : Int) : Bool :=
  t.haltStatus == ⟨1, code, s.pc, BitVec.ofInt 10 info⟩ &&
  { t with fsm := s.fsm, haltCause := s.haltCause, haltPc := s.haltPc, haltInfo := s.haltInfo } == s

/-- A one-step vector of section 2.5: `EXT_ALU` on, at 0, `x[0] = u`, `x[1] = v`. -/
def ext (bytes : List Byte) (u v : Byte) (check : State → Bool) : Bool :=
  after (small true .fault 0 [(0, u), (1, v)] [(0, bytes)]) check

/-! ### Fetch, prefetch, decode (V1 to V23) -/

theorem test_V1 : let s := small false .fault 256 [] []; after s (faultC s · 3 256) = true := by decide
theorem test_V3 : let s := small false .fault 254 [] [(254, [0x01])]; after s (faultC s · 3 256) = true := by decide
theorem test_V9 : let s := small false .ignore 254 [] [(254, [0x82, 0x09])]; after s (faultC s · 3 256) = true := by decide
theorem test_V12 : let s := small false .ignore 255 [] []; after s (faultC s · 2 0) = true := by decide
theorem test_V15 : let s := small false .fault 0 [] [(0, [0xA1, 0, 1])]; after s (faultC s · 2 0xA1) = true := by decide
theorem test_V19 : let s := small false .fault 0 [] [(0, [0xA0, 9, 12])]; after s (faultC s · 4 9) = true := by decide
theorem test_V23 : after (small false .fault 0 [] [(0, [0x47, 0, 0xFF])])
    (fun t => t.out == [0] && t.pc == 2) = true := by decide
theorem test_halted_takes_no_step : (match step ((small false .fault 0 [] []).halt .hlt 0) with
    | .fault .halted => true | _ => false) = true := by decide

/-! ### HLT, LDI, PRN (V30 to V37) -/

theorem test_V30 : after (small false .fault 5 [] [(5, [0x01])])
    (fun t => t.haltStatus == ⟨1, 1, 5, 0⟩ && t.pc == 6) = true := by decide
theorem test_V5 : after (small false .ignore 255 [] [(255, [0x01])])
    (fun t => t.haltStatus == ⟨1, 1, 255, 0⟩ && t.pc == 256) = true := by decide
theorem test_V32 : after (small false .fault 0 [] [(0, [0x82, 3, 0xFF])])
    (fun t => t.readReg 3 == 255 && t.pc == 3) = true := by decide
theorem test_V34 : after (small false .fault 0 [] [(0, [0x82, 7, 0x10])]) (fun t => t.readReg SP == 0x10) = true := by decide
theorem test_V36 : after (small false .fault 0 [] [(0, [0x47, 7])])
    (fun t => t.printed == [['2', '4', '4']] && t.pc == 2) = true := by decide

/-! ### ADD and MUL (V40 to V51) -/

theorem test_V41 : after (small false .fault 0 [(0, 200), (1, 100)] [(0, [0xA0, 0, 1])])
    (fun t => t.readReg 0 == 44 && t.readReg 1 == 100) = true := by decide
theorem test_V43 : after (small false .fault 0 [(0, 128)] [(0, [0xA0, 0, 0])]) (fun t => t.readReg 0 == 0) = true := by decide
theorem test_V47 : after (small false .fault 0 [(0, 255), (1, 255)] [(0, [0xA2, 0, 1])])
    (fun t => t.readReg 0 == 1) = true := by decide
theorem test_V51 : after (small false .fault 0 [(2, 12)] [(0, [0xA2, 2, 2])]) (fun t => t.readReg 2 == 144) = true := by decide

/-! ### The stack (V60 to V79) -/

theorem test_V61 : let s := small false .fault 0 [(7, 0)] [(0, [0x45, 0])]; after s (faultC s · 3 (-1)) = true := by decide
theorem test_V63 : after (small false .fault 0 [] [(0, [0x45, 7])])
    (fun t => t.readReg SP == 0xF3 && t.mem.read 0xF3 == 0xF3 && t.pc == 2) = true := by decide
theorem test_V67 : let s := small false .fault 0 [(7, 0xF3)] [(0, [0x46, 7]), (0xF3, [255])]
    after s (faultC s · 3 256) = true := by decide
theorem test_V68 : after (small false .fault 0 [(7, 255)] [(0, [0x46, 7]), (255, [3])])
    (fun t => t.readReg SP == 4 && t.pc == 2) = true := by decide
theorem test_V72 : after (small false .fault 3 [(1, 8), (7, 1)] [(3, [0x50, 1])])
    (fun t => t.readReg SP == 0 && t.mem.read 0 == 5 && t.pc == 8) = true := by decide
theorem test_V73 : after (small false .fault 3 [] [(3, [0x50, 7])])
    (fun t => t.readReg SP == 0xF3 && t.mem.read 0xF3 == 5 && t.pc == 0xF3) = true := by decide
theorem test_V77 : after (small false .fault 0 [(7, 0xF3)] [(0, [0x11]), (0xF3, [5])])
    (fun t => t.pc == 5 && t.readReg SP == 0xF4) = true := by decide
theorem test_V78 : let s := small false .fault 0 [(7, 255)] [(0, [0x11])]; after s (faultC s · 3 256) = true := by decide

/-! ### The ALU extension (V90 to V131) -/

theorem test_V91 : ext [0xA1, 0, 1] 5 6 (fun t => t.readReg 0 == 255) = true := by decide
theorem test_V92 : ext [0xA1, 0, 1] 0 255 (fun t => t.readReg 0 == 1) = true := by decide
theorem test_V95 : ext [0xA3, 0, 1] 200 7 (fun t => t.readReg 0 == 28) = true := by decide
theorem test_V98 : let s := small true .fault 0 [(0, 9)] [(0, [0xA3, 0, 1])]; after s (faultC s · 5 1) = true := by decide
theorem test_V102 : ext [0xA4, 0, 1] 200 7 (fun t => t.readReg 0 == 4) = true := by decide
theorem test_V105 : let s := small true .fault 0 [(0, 9)] [(0, [0xA4, 0, 1])]; after s (faultC s · 5 1) = true := by decide
theorem test_V107 : ext [0xA7, 0, 1] 3 5 (fun t => t.fl == 0b100 && t.readReg 0 == 3) = true := by decide
theorem test_V110 : ext [0xA7, 0, 1] 255 0 (fun t => t.fl == 0b010) = true := by decide
theorem test_V112 : ext [0xA8, 0, 1] 0xCC 0xAA (fun t => t.readReg 0 == 0x88) = true := by decide
theorem test_V113 : ext [0xAA, 0, 1] 0xCC 0xAA (fun t => t.readReg 0 == 0xEE) = true := by decide
theorem test_V114 : ext [0xAB, 0, 1] 0xCC 0xAA (fun t => t.readReg 0 == 0x66) = true := by decide
theorem test_V116 : ext [0x69, 0] 0x0F 0 (fun t => t.readReg 0 == 0xF0 && t.pc == 2) = true := by decide
theorem test_V121 : ext [0xAC, 0, 1] 0x81 1 (fun t => t.readReg 0 == 0x02) = true := by decide
theorem test_V124 : ext [0xAC, 0, 1] 0xFF 200 (fun t => t.readReg 0 == 0) = true := by decide
theorem test_V128 : ext [0xAD, 0, 1] 0x81 1 (fun t => t.readReg 0 == 0x40) = true := by decide
theorem test_V130 : ext [0xAD, 0, 1] 0xFF 8 (fun t => t.readReg 0 == 0) = true := by decide

/-! ### The program image and the assembly spelling (R71, R72) -/

theorem test_parseImage : parseImage ['#', 'c', '\n', '1', '0', '0', '0', '0', '0', '1', '0', ' ', '#', 'x', '\n', '\n'] =
    .ok [0x82] := by decide
theorem test_parseImage_refuses_a_short_line : parseImage ['\n', '1', '0', '\n'] = .error (.malformedLine 1) := by decide
theorem test_spell : spell (.mul 0 1) = ['M', 'U', 'L', ' ', 'R', '0', ',', 'R', '1'] := by decide
theorem test_readAsm : readAsm false ['L', 'D', 'I', ' ', 'R', '0', ' ', ',', '0', 'x', '1', 'F'] =
    some (.ldi 0 31) := by decide

/-! ### Witnesses: for each statement with hypotheses, states and operands that meet them -/

/-- A state that runs LDI R0,8, and the memory with one other cell changed. -/
def plain : State := small false .fault 0 [] [(0, [0x82, 0, 8])]

theorem witness_DecodeEncodeRoundTrip : Instr.enabled false (.mul 0 255) = true ∧ Instr.enabled true (.div 8 1) = true := by decide
theorem witness_DecodedBytesAreTheEncoding : decode false [0x82, 0, 8, 1] = .ok (.ldi 0 8) := by decide
theorem witness_AssemblyRoundTrip : Instr.wellFormed true (.shr 7 0) = true ∧ Instr.wellFormed false (.ldi 7 255) = true := by decide
/-- For ImageTextIsRead and the last clause of LaunchLoadsTheImage. -/
theorem witness_ImageTextIsRead : ∀ l ∈ [((some 0x82 : Option Byte), some ['L', 'D', 'I']), (none, none), (some 8, none)],
    ∀ c ∈ l.2.getD [], c ≠ '\n' := by simp
theorem witness_StepExecutesDecodedInstruction :
    (let s := small false .fault 253 [] [(253, [0x82, 0, 9])]
     s.fsm = .running ∧ s.pc.toNat ≤ 253 ∧ decode s.cfg.extAlu s.fetchedBytes = .ok (.ldi 0 9)) ∧
    (let s := small false .ignore 255 [] [(255, [0x11])]
     s.fsm = .running ∧ s.pc.toNat ≤ 255 ∧ s.cfg.prefetchOor = .ignore ∧ decode s.cfg.extAlu s.fetchedBytes = .ok .ret) := by decide
theorem witness_FetchBeyondMemoryFaults : let s := small false .fault 256 [] []; s.fsm = .running ∧ 256 ≤ s.pc.toNat := by decide
theorem witness_PrefetchAtTheTopOfMemory :
    (let s := small false .fault 254 [] []; s.fsm = .running ∧ s.pc.toNat = 254 ∧ s.cfg.prefetchOor = .fault) ∧
    (let s := small false .ignore 254 [] [(254, [0x47, 0])]
     s.fsm = .running ∧ s.pc.toNat = 254 ∧ s.cfg.prefetchOor = .ignore ∧
     decodeOpcode s.cfg.extAlu (s.mem.read s.pc.toNat) = some .prn ∧ s.pc.toNat + Opcode.prn.len ≤ 256) ∧
    (let s := small false .ignore 255 [] [(255, [0x11])]
     s.pc.toNat = 255 ∧ decodeOpcode s.cfg.extAlu (s.mem.read s.pc.toNat) = some .ret ∧ s.pc.toNat + Opcode.ret.len ≤ 256) ∧
    (let s := small false .ignore 254 [] [(254, [0x82, 0])]
     decodeOpcode s.cfg.extAlu (s.mem.read s.pc.toNat) = some .ldi ∧ 256 < s.pc.toNat + Opcode.ldi.len) := by decide
theorem witness_UnknownOpcodeFaults :
    (let s := small false .fault 253 [] []
     s.fsm = .running ∧ s.pc.toNat ≤ 253 ∧ decodeOpcode s.cfg.extAlu (s.mem.read s.pc.toNat) = none) ∧
    (let s := small true .ignore 255 [] [(255, [0xFF])]
     s.pc.toNat ≤ 255 ∧ s.cfg.prefetchOor = .ignore ∧ decodeOpcode s.cfg.extAlu (s.mem.read s.pc.toNat) = none) := by decide
theorem witness_OperandChecks :
    (let s := small false .ignore 255 [] [(255, [0x82])]
     s.fsm = .running ∧ s.pc.toNat ≤ 255 ∧ s.cfg.prefetchOor = .ignore ∧
     decodeOpcode s.cfg.extAlu (s.mem.read s.pc.toNat) = some .ldi ∧ 256 < s.pc.toNat + Opcode.ldi.len) ∧
    (Instr.add 0 8).regOperands.find? (fun r => decide (7 < r.toNat)) = some 8 ∧
    (∀ b ∈ (Instr.ldi 7 255).regOperands, b.toNat ≤ 7) := by decide
/-- The fourth clause of OperandChecks: its last premise is met in a state that already holds the cause. -/
theorem witness_OperandChecks_fourth_clause :
    (match exec (.ldi 7 255) ((small false .fault 0 [] []).halt .outOfRangeRegister 9) with
     | .next t => t.haltCause == .outOfRangeRegister
     | .fault _ => false
     | .refused _ => false) = true := by decide
theorem witness_ExtensionNeedsTheOption : let s := small false .fault 0 [] [(0, [0xA1, 0, 1])]
    Opcode.sub.isExt = true ∧ s.cfg.extAlu = false ∧ s.fsm = .running ∧ s.pc.toNat ≤ 253 ∧
    s.mem.read s.pc.toNat = Opcode.sub.byte := by decide
theorem witness_StepExistsExactlyWhenRunning : plain.fsm = .running ∧ (plain.halt .hlt 0).fsm = .halted := by decide
/-- A step that stays in RUNNING: for FsmTransitions, PcUpdate, RegistersWritten and the other statements about a next state. -/
theorem witness_running_step : after plain (fun t => t.fsm == .running && t.readReg 0 != plain.readReg 0) = true := by decide
/-- A step that halts with HLT: for FsmTransitions and PcUpdate. -/
theorem witness_hlt_step : after (small false .fault 0 [] [(0, [0x01])]) (fun t => t.haltCause == .hlt) = true := by decide
/-- Steps that fault with each cause that arises: for FaultsArePrecise, HaltInfoByCause and UnsupportedAluOperationNeverArises. -/
theorem witness_fault_steps :
    after (small false .fault 0 [] []) (fun t => t.fsm == .halted && t.haltCause == .unknownOpcode) = true ∧
    after (small false .fault 256 [] []) (fun t => t.haltCause == .outOfRangeAddress) = true ∧
    after (small false .fault 0 [] [(0, [0x47, 8])]) (fun t => t.haltCause == .outOfRangeRegister) = true ∧
    after (small true .fault 0 [] [(0, [0xA3, 0, 1])]) (fun t => t.haltCause == .divideByZero) = true := by decide
/-- The clauses of PcUpdate about CALL and RET. -/
theorem witness_call_and_ret_steps :
    after (small false .fault 0 [(1, 8)] [(0, [0x50, 1])]) (fun t => t.fsm == .running && t.pc == 8) = true ∧
    after (small false .fault 0 [(7, 0xF3)] [(0, [0x11]), (0xF3, [5])]) (fun t => t.fsm == .running && t.pc == 5) = true := by decide
theorem witness_OnlyPrnWritesTheOutput : after (small false .fault 0 [] [(0, [0x47, 7])]) (fun t => t.out != []) = true := by decide
theorem witness_FlIsWrittenByCmpAndReadByNone : ext [0xA7, 0, 1] 3 5 (fun t => t.fl != 0) = true := by decide
theorem witness_OnlyPushAndCallWriteMemory : after (small false .fault 0 [(0, 7)] [(0, [0x45, 0])])
    (fun t => t.mem.read 0xF3 != 0) = true := by decide
theorem witness_MemoryAccessPrimitives : plain.mem.wf := by decide
theorem witness_StoreIsSeenByTheNextFetch : let s := small false .fault 252 [(7, 255), (0, 1)] [(252, [0x45, 0, 9])]
    s.mem.wf ∧ s.fsm = .running ∧ s.mem.read s.pc.toNat = 0x45 ∧ s.mem.read (s.pc.toNat + 1) = Reg.byte 0 ∧
    (s.readReg SP).toNat = s.pc.toNat + 3 ∧ s.pc.toNat ≤ 252 := by decide
theorem witness_HltHalts :
    plain.pc.toNat ≤ 256 ∧
    (let s := small false .fault 254 [] [(254, [0x01])]
     s.fsm = .running ∧ s.mem.read s.pc.toNat = 0x01 ∧ s.pc.toNat = 254 ∧ s.cfg.prefetchOor = .fault) ∧
    (let s := small false .ignore 255 [] [(255, [0x01])]
     s.fsm = .running ∧ s.mem.read s.pc.toNat = 0x01 ∧ s.pc.toNat = 255 ∧ s.cfg.prefetchOor = .ignore) := by decide
/-- The premise on the PC that the statements about an instruction's result have, at its boundary. -/
theorem witness_pc_premise : (small false .fault 256 [] []).pc.toNat ≤ 256 := by decide
theorem witness_DivModAndZeroDivisor :
    ((small true .fault 0 [] []).readReg 1).toNat = 0 ∧ ((small true .fault 0 [(1, 7)] []).readReg 1).toNat ≠ 0 := by decide
theorem witness_PushStoresBelowTheStackPointer :
    (let s := small false .fault 0 [(7, 0)] []; s.mem.wf ∧ s.pc.toNat ≤ 256 ∧ (s.readReg SP).toNat = 0) ∧
    (let s := small false .fault 0 [(7, 1)] []; s.mem.wf ∧ (s.readReg SP).toNat ≠ 0) := by decide
theorem witness_PopLoadsThenIncrements :
    (let s := small false .fault 0 [(7, 255)] []; (s.readReg SP).toNat = 255 ∧ (1 : Reg) ≠ SP) ∧
    (let s := small false .fault 0 [(7, 0xF3)] [(0xF3, [255])]; (s.mem.read (s.readReg SP).toNat).toNat = 255) ∧
    (let s := small false .fault 0 [(7, 254)] []; (s.readReg SP).toNat ≠ 255) ∧
    (let s := small false .fault 0 [(7, 255)] [(255, [3])]; (s.mem.read (s.readReg SP).toNat).toNat ≠ 255) := by decide
theorem witness_CallPushesTheReturnAddress_first_clause :
    let s := small false .fault 253 [(1, 8)] [(253, [0x50, 1])]
    s.cfg.prefetchOor = .fault ∧ s.mem.read s.pc.toNat = 0x50 ∧ after s (fun t => t.fsm == .running) = true := by decide
theorem witness_CallPushesTheReturnAddress :
    (let s := small false .fault 0 [(7, 0)] []; s.mem.wf ∧ s.pc.toNat ≤ 256 ∧ (s.readReg SP).toNat = 0) ∧
    (let s := small false .ignore 254 [] []; (s.readReg SP).toNat ≠ 0 ∧ 255 < s.pc.toNat + 2) ∧
    (let s := small false .fault 253 [] []; (s.readReg SP).toNat ≠ 0 ∧ s.pc.toNat + 2 ≤ 255) := by decide
theorem witness_RetPopsThePc :
    ((small false .fault 0 [(7, 255)] []).readReg SP).toNat = 255 ∧ (plain.readReg SP).toNat ≠ 255 := by decide
/-- For StackRoundTrips and PushRetIsAnIndirectJump; the second law's `u` is the state the CALL leaves with R0 overwritten. -/
theorem witness_StackRoundTrips :
    plain.mem.wf ∧ 1 ≤ (plain.readReg SP).toNat ∧ plain.pc.toNat ≤ 253 ∧
    (match exec (.call 1) plain with
     | .next t =>
       let u := (t.writeReg 0 9).setPc 40
       u.readReg SP == t.readReg SP && u.mem.read (u.readReg SP).toNat == t.mem.read (t.readReg SP).toNat && u != t
     | .fault _ => false
     | .refused _ => false) = true := by decide
theorem witness_StepDependsOnFourBytes :
    let m := plain.mem.write 100 7
    plain.mem.wf ∧ m.wf ∧ m ≠ plain.mem ∧ m.read plain.pc.toNat = plain.mem.read plain.pc.toNat ∧
    m.read (plain.pc.toNat + 1) = plain.mem.read (plain.pc.toNat + 1) ∧
    m.read (plain.pc.toNat + 2) = plain.mem.read (plain.pc.toNat + 2) ∧
    m.read (plain.readReg SP).toNat = plain.mem.read (plain.readReg SP).toNat ∧ after plain (fun _ => true) = true := by decide
theorem witness_StepKeepsTheRunInvariant : plain.Inv ∧ after plain (fun _ => true) = true :=
  ⟨⟨by decide, by decide, by decide, by decide, ⟨rfl, rfl⟩⟩, by decide⟩
/-- For LaunchLoadsTheImage: the longest image, the shortest refused one, and a malformed line after a good one. -/
theorem witness_LaunchLoadsTheImage :
    (List.replicate 256 (0 : Byte)).length ≤ 256 ∧ 256 < (List.replicate 257 (0 : Byte)).length := by
  rw [List.length_replicate, List.length_replicate]; decide
theorem witness_LaunchLoadsTheImage_text :
    parseLine ['#'] ≠ none ∧ parseLine ['1', '0', '2'] = none ∧ ∀ l ∈ [['1', '0', '2'], ['#']], ∀ c ∈ l, c ≠ '\n' :=
  ⟨by decide, by decide, by simp⟩
theorem witness_RunFromLaunchMeetsTheInvariant : (match launch Config.default (fun _ => 7) [0x01] with
    | .ok s => s.mem.read 0 == 1 && s.mem.read 255 == 7 | .error _ => false) = true := by decide +kernel
theorem witness_HaltedIsFinal : ((small false .fault 0 [] [(0, [0x01])]).run 1).fsm = .halted := by decide

end Sys2Proof.Tests
end

section
/-! The invariant of a run, the output trace and reset (10_state.md): what the effect of an instruction can do to each
piece of state, which faults a step can take, and from these the statements of the family. -/

namespace Sys2Proof

/-- An instruction has one operand byte fewer than its length (R60, R61). -/
theorem Instr.operands_length (i : Instr) : i.operands.length + 1 = i.len := by
  cases i <;> rfl

end Sys2Proof

namespace Sys2Proof.Machine

/-! ### What an effect does to each piece of state -/

/-- An effect is HLT's, or leaves the FSM state, the halt record and the configuration alone (R32, R100). -/
theorem Effect.sameControl {s t : State} {i : Instr} (h : Effect s i t) :
    t = (s.halt .hlt 0).advance 1 ∨ s.SameControl t := by
  cases h with
  | hlt => exact .inl rfl
  | _ => exact .inr ⟨rfl, rfl, rfl, rfl, rfl⟩

theorem Effect.cfg {s t : State} {i : Instr} (h : Effect s i t) : t.cfg = s.cfg := by
  obtain rfl | hc := h.sameControl
  · rfl
  · exact hc.cfg

/-- Only PRN has an effect on the output trace (R33, R102). -/
theorem Effect.out {s t : State} {i : Instr} (h : Effect s i t) :
    t.out = s.out ∨ ∃ r : Reg, i = .prn (Reg.byte r) ∧ t.out = s.out ++ [s.readReg r] := by
  cases h with
  | prn r => exact .inr ⟨r, rfl, rfl⟩
  | _ => exact .inl rfl

/-- Only CMP has an effect on FL (R141). -/
theorem Effect.fl {s t : State} {i : Instr} (h : Effect s i t) :
    t.fl = s.fl ∨ ∃ ra rb : Reg, i = .cmp (Reg.byte ra) (Reg.byte rb) ∧
      t.fl = cmpFlags (s.readReg ra) (s.readReg rb) := by
  cases h with
  | cmp ra rb => exact .inr ⟨ra, rb, rfl, rfl⟩
  | _ => exact .inl rfl

/-- Only PUSH and CALL have an effect on memory: one byte, at the decremented stack pointer (R44, R92). -/
theorem Effect.mem {s t : State} {i : Instr} (h : Effect s i t) :
    t.mem = s.mem ∨ ∃ sp v : Byte, (i.opcode = .push ∨ i.opcode = .call) ∧ decSp (s.readReg SP) = .ok sp ∧
      t.mem = s.mem.write sp.toNat v := by
  cases h with
  | push r sp hsp => exact .inr ⟨sp, _, .inl rfl, hsp, rfl⟩
  | call r sp ret hsp hret => exact .inr ⟨sp, ret, .inr rfl, hsp, rfl⟩
  | _ => exact .inl rfl

/-- The PC moves past the instruction, or to a byte address that CALL or RET takes (R87). -/
theorem Effect.pc {s t : State} {i : Instr} (h : Effect s i t) :
    t.pc = s.pc + BitVec.ofNat 9 i.len ∨
      ((i.opcode = .call ∨ i.opcode = .ret) ∧ ∃ b : Byte, t.pc = b.setWidth 9) := by
  cases h with
  | alu i f ra rb hf ho hd =>
    have hlen : i.len = 3 := by rw [← i.operands_length, ho]; rfl
    exact .inl (by rw [hlen]; rfl)
  | call r sp ret hsp hret => exact .inr ⟨.inl rfl, _, rfl⟩
  | ret sp hsp => exact .inr ⟨.inr rfl, _, rfl⟩
  | _ => exact .inl rfl

/-- CMP sets exactly one of L, G and E (R145). -/
theorem cmpFlags_one_flag (va vb : Byte) : cmpFlags va vb = 1 ∨ cmpFlags va vb = 2 ∨ cmpFlags va vb = 4 := by
  rcases Nat.lt_trichotomy va.toNat vb.toNat with hlt | heq | hgt
  · have flags : cmpFlags va vb = 4 := by
      simp [cmpFlags, flagBit, hlt, Nat.not_lt_of_gt hlt, Nat.ne_of_lt hlt]
    exact .inr (.inr flags)
  · have flags : cmpFlags va vb = 1 := by
      simp [cmpFlags, flagBit, heq]
    exact .inl flags
  · have flags : cmpFlags va vb = 2 := by
      simp [cmpFlags, flagBit, hgt, Nat.not_lt_of_gt hgt, Nat.ne_of_gt hgt]
    exact .inr (.inl flags)

/-! ### The faults a step can take -/

/-- The causes a fault can have, each with the infos its row of R170 gives; `ext` is `EXT_ALU`. -/
inductive FaultFits (ext : Bool) : EngineFault → Prop
  | unknownOpcode (op : Byte) : FaultFits ext ⟨.unknownOpcode, op.toNat⟩
  | belowMemory : FaultFits ext ⟨.outOfRangeAddress, -1⟩
  | aboveMemory : FaultFits ext ⟨.outOfRangeAddress, 256⟩
  | register (b : Byte) (h : 7 < b.toNat) : FaultFits ext ⟨.outOfRangeRegister, b.toNat⟩
  | zeroDivisor (r : Reg) (h : ext = true) : FaultFits ext ⟨.divideByZero, r.val⟩

/-- A fault of phases 1 to 3 fits its row, where the PC is one of R25. -/
theorem State.fetch_error_fits {s : State} {f : EngineFault} (hpc : s.pc.toNat ≤ 256) (h : s.fetch = .error f) :
    FaultFits s.cfg.extAlu f := by
  rcases State.fetch_error h with ⟨hhigh, rfl⟩ | ⟨-, -, rfl⟩ | ⟨-, -, rfl⟩
  · have h256 : s.pc.toNat = 256 := by omega
    rw [h256]
    exact .aboveMemory
  · exact .aboveMemory
  · exact .unknownOpcode _

/-- A fault of a fetched instruction fits its row. The whole instruction lies in memory, so the return address that does not
fit in a byte is 256; and a divide was decoded, so the extension is there (R140). -/
theorem Raises.fits {s : State} {i : Instr} {f : EngineFault} (hi : s.fetch = .ok i) (h : Raises s i f) :
    FaultFits s.cfg.extAlu f := by
  obtain ⟨hlen, -, hext, -, -⟩ := State.fetch_ok hi
  cases h with
  | register b hb h7 => exact .register b h7
  | underflow hop hsp => exact .belowMemory
  | overflow hop => exact .aboveMemory
  | returnAddress hop hhigh =>
    have hcall : i.len = 2 := by rw [Instr.len, hop]; rfl
    have h256 : s.pc.toNat + 2 = 256 := by omega
    rw [h256]
    exact .aboveMemory
  | zeroDivisor hop rb ho h0 =>
    refine .zeroDivisor rb (hext ?_)
    rcases hop with hop | hop <;> rw [hop] <;> rfl

/-- What a step from a PC of R25 does: it takes a fault that fits, or has the effect of the fetched instruction. -/
theorem step_fault_or_effect {s t : State} (hpc : s.pc.toNat ≤ 256) (h : step s = .next t) :
    (∃ f, FaultFits s.cfg.extAlu f ∧ t = s.raiseFault f) ∨ ∃ i, s.fetch = .ok i ∧ Effect s i t := by
  obtain ⟨-, ⟨f, hf, ht⟩ | ⟨i, f, hi, hr, ht⟩ | ⟨i, hi, he⟩⟩ := step_inv h
  · exact .inl ⟨f, State.fetch_error_fits hpc hf, ht⟩
  · exact .inl ⟨f, hr.fits hi, ht⟩
  · exact .inr ⟨i, hi, he⟩

/-- No step changes the configuration (R20). -/
theorem step_cfg {s t : State} (h : step s = .next t) : t.cfg = s.cfg := by
  obtain ⟨-, ⟨f, -, rfl⟩ | ⟨i, f, -, -, rfl⟩ | ⟨i, -, he⟩⟩ := step_inv h
  · rfl
  · rfl
  · exact he.cfg

/-! ### The halt record -/

/-- The info a fault records is the fault's own, for an info HALT_INFO can hold (R32). -/
theorem State.raiseFault_haltInfoInt (s : State) (c : HaltCause) {n : Int} (h1 : -512 ≤ n) (h2 : n < 512) :
    (s.raiseFault ⟨c, n⟩).haltInfoInt = n :=
  (s.raiseFault_faultedFrom c h1 h2).haltInfo

theorem State.raiseFault_recordFits {s : State} {f : EngineFault} (h : FaultFits s.cfg.extAlu f) :
    (s.raiseFault f).RecordFits := by
  cases h with
  | unknownOpcode op =>
    have hop := op.isLt
    have hinfo := s.raiseFault_haltInfoInt .unknownOpcode (n := op.toNat) (by omega) (by omega)
    exact ⟨rfl, by omega, by omega⟩
  | belowMemory => exact ⟨rfl, .inl (s.raiseFault_haltInfoInt .outOfRangeAddress (by decide) (by decide))⟩
  | aboveMemory => exact ⟨rfl, .inr (s.raiseFault_haltInfoInt .outOfRangeAddress (by decide) (by decide))⟩
  | register b h7 =>
    have hb := b.isLt
    have hinfo := s.raiseFault_haltInfoInt .outOfRangeRegister (n := b.toNat) (by omega) (by omega)
    exact ⟨rfl, by omega, by omega⟩
  | zeroDivisor r hext =>
    have hr := r.isLt
    have hinfo := s.raiseFault_haltInfoInt .divideByZero (n := r.val) (by omega) (by omega)
    exact ⟨rfl, by omega, by omega, hext⟩

/-- HLT's record: its own address, and the PC past it (R100). -/
theorem State.hlt_recordFits {s : State} (hpc : s.pc.toNat ≤ 256) :
    ((s.halt .hlt 0).advance 1).RecordFits :=
  ⟨rfl, State.advance_pc_toNat (s := s.halt .hlt 0) (by simp only [State.halt_pc]; omega)⟩

/-- While RUNNING the record is empty (R32). -/
theorem State.recordFits_running {s : State} (hrun : s.fsm = .running) :
    s.RecordFits ↔ s.haltCause = .none ∧ s.haltPc = 0 ∧ s.haltInfoInt = 0 := by
  cases hc : s.haltCause <;> simp [State.RecordFits, hrun, hc]

theorem State.SameControl.recordFits {s t : State} (h : s.SameControl t) (hrun : s.fsm = .running)
    (hs : s.RecordFits) : t.RecordFits := by
  obtain ⟨hfsm, hcause, hpc, hinfo, -⟩ := h
  rw [State.recordFits_running (hfsm.trans hrun), State.haltInfoInt, hcause, hpc, hinfo]
  exact (State.recordFits_running hrun).mp hs

/-! ### The invariant of a run -/

/-- A fault keeps the invariant: it writes the FSM state and the halt record only (R88). -/
theorem State.Inv.raiseFault {s : State} (hs : s.Inv) {f : EngineFault} (hf : FaultFits s.cfg.extAlu f) :
    (s.raiseFault f).Inv where
  mem := hs.mem
  pc := hs.pc
  fl := hs.fl
  flAbsent := hs.flAbsent
  record := State.raiseFault_recordFits hf

theorem Effect.mem_wf {s t : State} {i : Instr} (he : Effect s i t) (hs : s.mem.wf) : t.mem.wf := by
  obtain hm | ⟨sp, v, -, -, hm⟩ := he.mem
  · rw [hm]; exact hs
  · rw [hm]; exact Memory.wf_write hs sp.isLt v

/-- The PC after an instruction that lies in memory is 0 to 256 (R25). -/
theorem Effect.pc_le {s t : State} {i : Instr} (he : Effect s i t) (hlen : s.pc.toNat + i.len ≤ 256) :
    t.pc.toNat ≤ 256 := by
  obtain hp | ⟨-, b, hp⟩ := he.pc
  · have hadv := State.advance_pc_toNat (s := s) (n := i.len) (by omega)
    rw [State.advance_pc, ← hp] at hadv
    omega
  · have hb := b.isLt
    rw [hp, BitVec.toNat_setWidth]
    omega

/-- The effect of a fetched instruction keeps the invariant of a running state. -/
theorem State.Inv.effect {s t : State} {i : Instr} (hs : s.Inv) (hrun : s.fsm = .running) (hi : s.fetch = .ok i)
    (he : Effect s i t) : t.Inv := by
  obtain ⟨hlen, -, hext, -, -⟩ := State.fetch_ok hi
  refine ⟨he.mem_wf hs.mem, he.pc_le hlen, ?_, ?_, ?_⟩
  · obtain hfl | ⟨ra, rb, -, hfl⟩ := he.fl
    · rw [hfl]; exact hs.fl
    · rw [hfl]; exact .inr (cmpFlags_one_flag _ _)
  · intro hoff
    rw [he.cfg] at hoff
    obtain hfl | ⟨ra, rb, rfl, -⟩ := he.fl
    · rw [hfl]; exact hs.flAbsent hoff
    · have hon : s.cfg.extAlu = true := hext rfl
      simp [hoff] at hon
  · obtain rfl | hc := he.sameControl
    · exact State.hlt_recordFits hs.pc
    · exact hc.recordFits hrun hs.record

theorem State.Inv.step {s t : State} (hs : s.Inv) (h : step s = .next t) : t.Inv := by
  obtain ⟨f, hf, rfl⟩ | ⟨i, hi, he⟩ := step_fault_or_effect hs.pc h
  · exact hs.raiseFault hf
  · exact hs.effect (step_inv h).1 hi he

/-! ### Reset, launch and run -/

/-- The register file after reset: R7 is `SP_INIT`, every other register 0 (R38). -/
theorem State.resetWith_readReg (cfg : Config) (r : Reg) :
    (State.resetWith cfg).readReg r = if r.val = 7 then cfg.spInit else 0 := by
  fin_cases r <;> rfl

theorem State.resetWith_inv (cfg : Config) : (State.resetWith cfg).Inv where
  mem := Memory.wf_nil
  pc := Nat.zero_le 256
  fl := .inl rfl
  flAbsent := fun _ => rfl
  record := ⟨rfl, rfl⟩

/-- The invariant asks of memory its canonical form only. -/
theorem State.Inv.setMem {s : State} (hs : s.Inv) {m : Memory} (hm : m.wf) : (s.setMem m).Inv where
  mem := hm
  pc := hs.pc
  fl := hs.fl
  flAbsent := hs.flAbsent
  record := hs.record

/-- An accepted launch: the image fits in memory, and the state is the reset state with the image over `MEM_INIT` (R191, R193). -/
theorem launch_ok {cfg : Config} {memInit : Nat → Byte} {image : List Byte} {s : State}
    (h : launch cfg memInit image = .ok s) :
    image.length ≤ 256 ∧ s = (State.resetWith cfg).setMem ((Memory.ofFun memInit).writeBytes 0 image) := by
  simp only [launch, State.load] at h
  split at h
  · cases h
  · exact ⟨by omega, (Except.ok.inj h).symm⟩

theorem launch_inv {cfg : Config} {memInit : Nat → Byte} {image : List Byte} {s : State}
    (h : launch cfg memInit image = .ok s) : s.Inv := by
  obtain ⟨hlen, rfl⟩ := launch_ok h
  exact (State.resetWith_inv cfg).setMem (Memory.wf_writeBytes (Memory.wf_ofFun memInit) (by omega))

theorem launch_cfg {cfg : Config} {memInit : Nat → Byte} {image : List Byte} {s : State}
    (h : launch cfg memInit image = .ok s) : s.cfg = cfg := by
  obtain ⟨-, rfl⟩ := launch_ok h
  rfl

/-- What every step keeps, a run keeps (R191, R195). -/
theorem State.run_keeps {P : State → Prop} (hstep : ∀ s t, P s → step s = .next t → P t) (k : Nat) {s : State}
    (hs : P s) : P (s.run k) := by
  induction k generalizing s with
  | zero => exact hs
  | succ k ih =>
    rw [State.run]
    split
    case h_1 t h => exact ih (hstep s t hs h)
    case h_2 => exact hs
    case h_3 => exact hs

/-! ### The statements -/

/-- Settles O43: a step takes a fault that fits its row, or has the effect of an instruction that lies in memory, and both
keep the invariant. -/
theorem stepKeepsTheRunInvariant : Obligations.StepKeepsTheRunInvariant :=
  fun _ _ hs h => hs.step h

/-- Settles O38: a fault keeps the output trace, and of the effects only PRN's does not. -/
theorem onlyPrnWritesTheOutput : Obligations.OnlyPrnWritesTheOutput := by
  intro s t h
  obtain ⟨-, ⟨f, -, rfl⟩ | ⟨i, f, -, -, rfl⟩ | ⟨i, hi, he⟩⟩ := step_inv h
  · exact .inl rfl
  · exact .inl rfl
  · obtain hout | ⟨r, rfl, hout⟩ := he.out
    · exact .inl hout
    · obtain ⟨-, hop, -, hoperand, -⟩ := State.fetch_ok hi
      exact .inr ⟨hop, r, hoperand 0 _ rfl, hout⟩

/-- Settles O45: a launch meets the invariant, and a run keeps it and the configuration, because every step does. The
invariant's clause on FL without the extension is the model's own (log entry 4). -/
theorem runFromLaunchMeetsTheInvariant : Obligations.RunFromLaunchMeetsTheInvariant := by
  intro cfg memInit image s k h
  have keeps : ∀ u v : State, (u.Inv ∧ u.cfg = cfg) → step u = .next v → (v.Inv ∧ v.cfg = cfg) :=
    fun u v ⟨hu, hcfg⟩ huv => ⟨hu.step huv, (step_cfg huv).trans hcfg⟩
  exact State.run_keeps keeps k ⟨launch_inv h, launch_cfg h⟩

/-- Settles O44: `State.reset` is the reset state of the default configuration. -/
theorem resetMeetsTheRunInvariant : Obligations.ResetMeetsTheRunInvariant :=
  ⟨State.resetWith_inv Config.default, State.resetWith_inv⟩

/-- Settles O47: each field is the one `State.resetWith` lists; the registers are read one by one. -/
theorem resetValues : Obligations.ResetValues :=
  ⟨rfl, fun cfg => ⟨rfl, rfl, State.resetWith_readReg cfg, rfl, rfl, rfl, rfl, rfl, rfl⟩⟩

end Sys2Proof.Machine
end

section
/-! Memory (20_memory.md): the two access primitives, the fetch of an instruction that lies in memory, which instructions
store, and which bytes a step can depend on. -/

namespace Sys2Proof.Machine

/-! ### Memory access (R41, R42) -/

theorem State.memWrite_in_range {s : State} {a : Nat} (v : Byte) (h : a ≤ 255) :
    s.memWrite a v = .ok (s.setMem (s.mem.write a v)) := by
  simp only [State.memWrite, if_pos h]

theorem State.memWrite_out_of_range {s : State} {a : Nat} (v : Byte) (h : 255 < a) :
    s.memWrite a v = .error ⟨.outOfRangeAddress, a⟩ := by
  simp only [State.memWrite, if_neg (by omega : ¬ a ≤ 255)]

/-! ### Fetching an instruction that lies in memory -/

/-- The byte at `pc + k`, for an address of memory (R83). -/
theorem State.byteAt_in_range {s : State} {k : Nat} (h : s.pc.toNat + k ≤ 255) :
    s.byteAt k = some (s.mem.read (s.pc.toNat + k)) := by
  simp only [State.byteAt, if_pos h]

/-- Where all three bytes lie in memory, the fetch gives the opcode's row with the two bytes after it (R82 to R85). -/
theorem State.fetch_row {s : State} {c : Opcode} (hpc : s.pc.toNat ≤ 253)
    (hop : decodeOpcode s.cfg.extAlu (s.mem.read s.pc.toNat) = some c) :
    s.fetch = .ok (c.build (s.mem.read (s.pc.toNat + 1)) (s.mem.read (s.pc.toNat + 2))) := by
  rw [State.fetch_decodes (by omega) (.inl hpc), State.byteAt_in_range (k := 1) (by omega),
    State.byteAt_in_range (k := 2) (by omega)]
  simp [decodeFetched, hop]

/-! ### What a step reads of memory

`s.setMem m` is the other state of the two-state law: it differs from `s` in memory only. -/

/-- Where `o` answers a next state, `o'` answers the same but for memory, and every cell is alike in the two memories
afterwards or as it was in both before. -/
def StepsAlike (s : State) (m : Memory) (o o' : Host.Outcome State Fault Refusal) : Prop :=
  ∀ t, o = .next t → ∃ n, o' = .next (t.setMem n) ∧
    ∀ a, n.read a = t.mem.read a ∨ (n.read a = m.read a ∧ t.mem.read a = s.mem.read a)

section
variable {s : State} {m : Memory}

@[simp] theorem State.address_setMem (s : State) (m : Memory) (src : AddressSource) :
    (s.setMem m).address src = s.address src := by
  cases src <;> rfl

theorem State.memRead_setMem {a : Nat} (h : m.read a = s.mem.read a) : (s.setMem m).memRead a = s.memRead a := by
  simp only [State.memRead, State.setMem_mem, h]

theorem State.prefetch_setMem {src : AddressSource} (h : m.read (s.address src) = s.mem.read (s.address src)) :
    (s.setMem m).prefetch src = s.prefetch src := by
  simp only [State.prefetch, State.address_setMem, State.setMem_mem, State.setMem_cfg, h]

/-- The fetch reads memory at `pc`, `pc + 1` and `pc + 2` only (R44, R82, R83). -/
theorem State.fetch_setMem (h0 : m.read s.pc.toNat = s.mem.read s.pc.toNat)
    (h1 : m.read (s.pc.toNat + 1) = s.mem.read (s.pc.toNat + 1))
    (h2 : m.read (s.pc.toNat + 2) = s.mem.read (s.pc.toNat + 2)) : (s.setMem m).fetch = s.fetch := by
  have p0 : (s.setMem m).memRead (s.address .pc) = s.memRead (s.address .pc) := State.memRead_setMem h0
  have p1 : (s.setMem m).prefetch .pcPlus1 = s.prefetch .pcPlus1 := State.prefetch_setMem h1
  have p2 : (s.setMem m).prefetch .pcPlus2 = s.prefetch .pcPlus2 := State.prefetch_setMem h2
  simp only [State.fetch, State.address_setMem, p0, p1, p2]
  rfl

/-- An answer that leaves memory as it was. -/
theorem StepsAlike.keeps {t : State} (h : t.mem = s.mem) : StepsAlike s m (.next t) (.next (t.setMem m)) := by
  rintro _ ⟨⟩
  exact ⟨m, rfl, fun a => .inr ⟨rfl, by rw [h]⟩⟩

/-- An answer that stores one byte at one address. -/
theorem StepsAlike.stores (hs : s.mem.wf) (hm : m.wf) {t : State} {a : Nat} {v : Byte} (h : t.mem = s.mem.write a v) :
    StepsAlike s m (.next t) (.next (t.setMem (m.write a v))) := by
  rintro _ ⟨⟩
  refine ⟨m.write a v, rfl, fun b => ?_⟩
  rw [h]
  by_cases hb : b = a
  · rw [hb, Memory.read_write_same hm, Memory.read_write_same hs]
    exact .inl rfl
  · exact .inr ⟨Memory.read_write_other m v hb, Memory.read_write_other s.mem v hb⟩

/-- A check that answers the same in both states: its fault leaves both memories, and otherwise the rest decides. -/
theorem StepsAlike.check {α : Type} {e e' : Except EngineFault α} {k k' : α → Except EngineFault State} (he : e' = e)
    (h : ∀ x, e = .ok x → StepsAlike s m (s.complete (k x)) ((s.setMem m).complete (k' x))) :
    StepsAlike s m (s.complete (e >>= k)) ((s.setMem m).complete (e' >>= k')) := by
  subst he
  cases e' with
  | error f => exact .keeps rfl
  | ok x => exact h x rfl

theorem aluApply_stepsAlike (f : Byte → Byte → Byte) (a b : Byte) :
    StepsAlike s m (aluApply f a b s) (aluApply f a b (s.setMem m)) :=
  .check rfl fun _ _ => .keeps rfl

theorem aluDivide_stepsAlike (f : Byte → Byte → Byte) (a b : Byte) :
    StepsAlike s m (aluDivide f a b s) (aluDivide f a b (s.setMem m)) :=
  .check rfl fun _ _ => .check rfl fun _ _ => .keeps rfl

/-- The store of PUSH and CALL, at the decremented stack pointer (R122, R124). -/
theorem StepsAlike.pushes (hs : s.mem.wf) (hm : m.wf) {sp : Byte} (v : Byte) (hsp : decSp (s.readReg SP) = .ok sp)
    {k : State → State} (hk : ∀ u n, k (u.setMem n) = (k u).setMem n) :
    StepsAlike s m
      (s.complete ((s.writeReg SP sp).memWrite (s.address .spMinus1) v >>= fun u => pure (k u)))
      ((s.setMem m).complete
        (((s.setMem m).writeReg SP sp).memWrite ((s.setMem m).address .spMinus1) v >>= fun u => pure (k u))) := by
  rw [State.address_setMem, State.address_spMinus1 hsp, State.memWrite_byte, State.memWrite_byte]
  have hmem : ∀ u, (k u).mem = u.mem := fun u => calc
    (k u).mem = ((k u).setMem u.mem).mem := congrArg State.mem (hk u u.mem)
    _ = u.mem := rfl
  have hstore := StepsAlike.stores hs hm (hmem ((s.writeReg SP sp).setMem (s.mem.write sp.toNat v)))
  rwa [← hk] at hstore

/-- Beside the fetched bytes an instruction reads memory only at the stack pointer, in POP and RET (R44, R92). -/
theorem exec_stepsAlike (hs : s.mem.wf) (hm : m.wf)
    (htop : m.read (s.readReg SP).toNat = s.mem.read (s.readReg SP).toNat) (i : Instr) :
    StepsAlike s m (exec i s) (exec i (s.setMem m)) := by
  have hpop : (s.setMem m).memRead ((s.setMem m).address .sp) = s.memRead (s.address .sp) :=
    State.memRead_setMem htop
  cases i with
  | hlt => exact .keeps rfl
  | ldi a b => exact .check rfl fun _ _ => .keeps rfl
  | prn a => exact .check rfl fun _ _ => .keeps rfl
  | push a => exact .check rfl fun _ _ => .check rfl fun sp hsp => .pushes hs hm _ hsp fun _ _ => rfl
  | pop a => exact .check rfl fun _ _ => .check hpop fun _ _ => .check rfl fun _ _ => .keeps rfl
  | call a =>
    exact .check rfl fun _ _ => .check rfl fun sp hsp => .check rfl fun _ _ => .pushes hs hm _ hsp fun _ _ => rfl
  | ret => exact .check hpop fun _ _ => .check rfl fun _ _ => .keeps rfl
  | cmp a b => exact .check rfl fun _ _ => .keeps rfl
  | not a => exact .check rfl fun _ _ => .keeps rfl
  | div a b => exact aluDivide_stepsAlike aluDiv a b
  | mod a b => exact aluDivide_stepsAlike aluMod a b
  | add a b => exact aluApply_stepsAlike aluAdd a b
  | mul a b => exact aluApply_stepsAlike aluMul a b
  | sub a b => exact aluApply_stepsAlike aluSub a b
  | and a b => exact aluApply_stepsAlike aluAnd a b
  | or a b => exact aluApply_stepsAlike aluOr a b
  | xor a b => exact aluApply_stepsAlike aluXor a b
  | shl a b => exact aluApply_stepsAlike aluShl a b
  | shr a b => exact aluApply_stepsAlike aluShr a b

end

/-! ### The statements -/

/-- Settles O42: the fetch answers the same in both states, so both take the same fault or run the same instruction, and
the instruction reads no byte of memory but the one at the stack pointer. -/
theorem stepDependsOnFourBytes : Obligations.StepDependsOnFourBytes := by
  intro s t m hs hm h0 h1 h2 htop h
  have hfetch := State.fetch_setMem h0 h1 h2
  suffices StepsAlike s m (step s) (step (s.setMem m)) from this t h
  have hrun : s.fsm = .running := (step_inv h).1
  cases hx : s.fetch with
  | error f =>
    rw [step_fetch_error hrun hx, step_fetch_error (s := s.setMem m) hrun (hfetch.trans hx)]
    exact .keeps rfl
  | ok i =>
    rw [step_fetch_ok hrun hx, step_fetch_ok (s := s.setMem m) hrun (hfetch.trans hx)]
    exact exec_stepsAlike hs hm htop i

/-- Settles O40: a fault keeps memory, and of the effects only PUSH's and CALL's store, at the decremented stack pointer. -/
theorem onlyPushAndCallWriteMemory : Obligations.OnlyPushAndCallWriteMemory := by
  intro s t h
  obtain ⟨-, ⟨f, -, rfl⟩ | ⟨i, f, -, -, rfl⟩ | ⟨i, hi, he⟩⟩ := step_inv h
  · exact .inl fun _ => rfl
  · exact .inl fun _ => rfl
  obtain hmem | ⟨sp, v, hop, hsp, hmem⟩ := he.mem
  · exact .inl fun a => by rw [hmem]
  obtain ⟨-, hbyte, -, -, -⟩ := State.fetch_ok hi
  have hdec := (decSp_ok hsp).2
  refine .inr ⟨hop.imp (fun hc => by rw [hbyte, hc]; rfl) (fun hc => by rw [hbyte, hc]; rfl), by omega, ?_⟩
  intro a ha
  rw [hmem]
  exact Memory.read_write_other s.mem v (by omega)

/-- Settles O19: each primitive is its range check, and the laws of memory give the rest. -/
theorem memoryAccessPrimitives : Obligations.MemoryAccessPrimitives := by
  intro s addr v hs
  constructor
  · intro h
    refine ⟨State.memRead_in_range h, _, State.memWrite_in_range v h, Memory.wf_write hs (by omega) v, ?_, ?_, rfl⟩
    · rw [State.memRead_in_range h, State.setMem_mem, Memory.read_write_same hs]
    · exact fun a ha => Memory.read_write_other s.mem v ha
  · exact fun h => ⟨State.memRead_out_of_range h, State.memWrite_out_of_range v h⟩

/-- Settles O20: the fetch gives the PUSH before anything is stored, and the cell at `p + 2` is the decremented stack
pointer's. -/
theorem storeIsSeenByTheNextFetch : Obligations.StoreIsSeenByTheNextFetch := by
  intro r s hs hrun hop hr hsp hpc
  have hrow : decodeOpcode s.cfg.extAlu (s.mem.read s.pc.toNat) = some .push :=
    decodeOpcode_eq_some.mpr ⟨hop, fun h => by cases h⟩
  have hfetch : s.fetch = .ok (.push (Reg.byte r)) := by
    rw [State.fetch_row (by omega) hrow, hr]
    rfl
  obtain ⟨sp, hdec, hcell⟩ : ∃ sp, decSp (s.readReg SP) = .ok sp ∧ sp.toNat = s.pc.toNat + 2 := by
    have hne : s.readReg SP ≠ 0 := fun h => by simp [h] at hsp
    have := decSp_toNat hne
    exact ⟨_, decSp_pos hne, by omega⟩
  have hnext : ((s.pushed sp (s.pushValue sp r)).advance 2).pc.toNat = s.pc.toNat + 2 :=
    State.advance_pc_toNat (s := s.pushed _ _) (show s.pc.toNat + 2 < 512 by omega)
  refine ⟨_, (step_fetch_ok hrun hfetch).trans (exec_push r hdec), hrun, hnext, ?_⟩
  rw [State.address, hnext, ← hcell, State.memRead_byte]
  calc Except.ok ((s.mem.write sp.toNat (s.pushValue sp r)).read sp.toNat)
    _ = .ok (s.pushValue sp r) := by rw [Memory.read_write_same hs]
    _ = _ := by simp [State.pushed, State.pushValue]

end Sys2Proof.Machine
end

section
/-! The opcode maps, the decoder and the encoder (30_encoding.md, R60 to R69). -/

namespace Sys2Proof

/-! ### Instructions and their operand bytes -/

/-- An instruction exists in a configuration when its row does (R140). -/
theorem Instr.enabled_iff {ext : Bool} {i : Instr} : i.enabled ext = true ↔ (i.opcode.isExt = true → ext = true) := by
  simp only [Instr.enabled, Bool.or_eq_true, Bool.not_eq_true']
  cases i.opcode.isExt <;> simp

/-- An instruction is its row with its operand bytes put back, whatever bytes follow them (R61, R68). -/
theorem Instr.build_operands_append (i : Instr) (rest : List Byte) :
    i.opcode.build ((i.operands ++ rest)[0]?.getD 0) ((i.operands ++ rest)[1]?.getD 0) = i := by
  cases i <;> rfl

theorem encode_length (i : Instr) : (encode i).length = i.len := i.operands_length

/-! ### The decoder -/

/-- Decoding a row whose operand bytes are all there (R84, R85 item 1). -/
theorem decodeFetched_row {ext : Bool} {op : Byte} {c : Opcode} {a b : Option Byte} (hop : decodeOpcode ext op = some c)
    (ha : 2 ≤ c.len → a ≠ none) (hb : 3 ≤ c.len → b ≠ none) :
    decodeFetched ext op a b = .ok (c.build (a.getD 0) (b.getD 0)) := by
  have ha' : ¬ (2 ≤ c.len ∧ a = none) := fun h => ha h.1 h.2
  have hb' : ¬ (3 ≤ c.len ∧ b = none) := fun h => hb h.1 h.2
  simp only [decodeFetched, hop, if_neg ha', if_neg hb']

/-- The bytes at positions 0 and 1 of a list, as far as the list has them. -/
theorem take_first_two {bytes : List Byte} {n : Nat} (hn : n ≤ 2) (h : n ≤ bytes.length) :
    [bytes[0]?.getD 0, bytes[1]?.getD 0].take n = bytes.take n := by
  apply List.ext_getElem
  · simp; omega
  · intro k hk _
    simp only [List.length_take, List.length_cons, List.length_nil] at hk
    rcases (by omega : k = 0 ∨ k = 1) with rfl | rfl
    · simp [(by omega : 0 < bytes.length)]
    · simp [(by omega : 1 < bytes.length)]

/-- What decoded bytes are: a row's opcode byte, then at least the row's operand bytes, which the instruction keeps. -/
theorem decode_ok {ext : Bool} {bytes : List Byte} {i : Instr} (h : decode ext bytes = .ok i) :
    ∃ rest, bytes = i.opcode.byte :: rest ∧ (i.opcode.isExt = true → ext = true) ∧
      i.opcode.len - 1 ≤ rest.length ∧ i = i.opcode.build (rest[0]?.getD 0) (rest[1]?.getD 0) := by
  cases bytes with
  | nil => cases h
  | cons op rest =>
    rcases decodeFetched_cases ext op rest[0]? rest[1]? with
      ⟨-, hd⟩ | ⟨c, hc, ⟨-, -, hd⟩ | ⟨-, -, -, hd⟩ | ⟨ha, hb, hd⟩⟩ <;> cases hd.symm.trans h
    obtain ⟨rfl, hext⟩ := decodeOpcode_eq_some.mp hc
    have hlen : c.len - 1 ≤ rest.length := by
      have := c.len_pos
      simp only [ne_eq, List.getElem?_eq_none_iff] at ha hb
      omega
    exact ⟨rest, by simp, by simpa using hext, by simpa using hlen, by simp⟩

/-! ### The opcode maps as tables -/

/-- A row of an opcode map: the byte, the mnemonic, the format and the length (R64, R66). -/
def Opcode.row (c : Opcode) : Byte × Opcode × Format × Nat := (c.byte, c, c.format, c.len)

theorem mem_map_row {cs : List Opcode} {op : Byte} {c : Opcode} :
    (op, c, c.format, c.len) ∈ cs.map Opcode.row ↔ op = c.byte ∧ c ∈ cs := by
  simp only [List.mem_map, Opcode.row, Prod.mk.injEq]
  constructor
  · rintro ⟨d, hd, rfl, rfl, -, -⟩
    exact ⟨rfl, hd⟩
  · rintro ⟨rfl, hc⟩
    exact ⟨c, hc, rfl, rfl, rfl, rfl⟩

theorem mem_baseOpcodes {c : Opcode} : c ∈ baseOpcodes ↔ c.isExt = false := by
  cases c <;> decide

theorem mem_extOpcodes {c : Opcode} : c ∈ extOpcodes ↔ c.isExt = true := by
  cases c <;> decide

/-- A row exists in a configuration: it is one of R64, or one of R66 under `EXT_ALU` (R140). -/
theorem exists_iff_mem_opcodes {ext : Bool} {c : Opcode} :
    (c.isExt = true → ext = true) ↔ c ∈ baseOpcodes ∨ ext = true ∧ c ∈ extOpcodes := by
  rw [mem_baseOpcodes, mem_extOpcodes]
  cases c.isExt <;> simp

/-- The fields of an opcode byte (R65): bits 7:6 count the operand bytes, bit 5 marks the ALU, bit 4 the setters of the PC. -/
theorem Opcode.byte_fields (c : Opcode) :
    c.byte.toNat / 64 + 1 = c.len ∧
    (c.byte.getLsbD 5 = true ↔ c ∈ [Opcode.add, .mul, .sub, .div, .mod, .cmp, .and, .or, .xor, .not, .shl, .shr]) ∧
    (c.byte.getLsbD 4 = true ↔ c ∈ [Opcode.call, .ret]) := by
  cases c <;> decide

/-! ### The statements -/

/-- Settles O2: the opcode byte is looked up as the instruction's row, its operand bytes are there, and the row with them
is the instruction. -/
theorem decodeEncodeRoundTrip : Obligations.DecodeEncodeRoundTrip := by
  intro ext i rest h
  have hrow : decodeOpcode ext i.opcode.byte = some i.opcode := decodeOpcode_eq_some.mpr ⟨rfl, Instr.enabled_iff.mp h⟩
  have hlen : i.operands.length + 1 = i.opcode.len := i.operands_length
  calc decode ext (encode i ++ rest)
    _ = decodeFetched ext i.opcode.byte (i.operands ++ rest)[0]? (i.operands ++ rest)[1]? := rfl
    _ = .ok (i.opcode.build ((i.operands ++ rest)[0]?.getD 0) ((i.operands ++ rest)[1]?.getD 0)) := by
      refine decodeFetched_row hrow ?_ ?_ <;>
      · simp only [ne_eq, List.getElem?_eq_none_iff, List.length_append]
        omega
    _ = .ok i := by rw [i.build_operands_append]

/-- Settles O3: decoding keeps the row and the operand bytes, and the encoding puts them back in front of what follows. -/
theorem decodedBytesAreTheEncoding : Obligations.DecodedBytesAreTheEncoding := by
  intro ext bytes i h
  obtain ⟨rest, rfl, hext, hlen, hi⟩ := decode_ok h
  refine ⟨Instr.enabled_iff.mpr hext, rest.drop (i.opcode.len - 1), ?_⟩
  have hoperands : i.operands = rest.take (i.opcode.len - 1) := by
    rw [hi, Opcode.build_operands, Opcode.build_opcode]
    exact take_first_two (by have := i.opcode.len_pos; omega) hlen
  rw [encode, hoperands, List.cons_append, List.take_append_drop]

/-- Settles O1: the decoder is run on each word. -/
theorem sampleWordsDecode : Obligations.SampleWordsDecode := by
  unfold Obligations.SampleWordsDecode
  decide

/-- Settles O4: the two tables of the statement are the rows of R64 and R66, and a byte decodes to a row when it is the
row's and the row exists in the configuration. -/
theorem decoderIsTheOpcodeMap : Obligations.DecoderIsTheOpcodeMap := by
  intro ext op c
  change _ ↔ (op, c, c.format, c.len) ∈ baseOpcodes.map Opcode.row ∨
    ext = true ∧ (op, c, c.format, c.len) ∈ extOpcodes.map Opcode.row
  rw [decodeOpcode_eq_some, mem_map_row, mem_map_row, exists_iff_mem_opcodes]
  tauto

/-- Settles O5: the encoding is as long as its opcode says, and the opcode byte has the fields of R65. -/
theorem lengthAndFieldStructure : Obligations.LengthAndFieldStructure := by
  intro i
  obtain ⟨hlen, halu, hpc⟩ := i.opcode.byte_fields
  exact ⟨encode_length i, hlen.trans (encode_length i).symm, halu, hpc⟩

end Sys2Proof
end

section
/-! The assembly spelling (30_encoding.md, R72): digits, tokens, and reading back what the writer writes. -/

namespace Sys2Proof.Machine

/-! ### Digits -/

/-- A decimal digit that is below the base has its own value. -/
theorem digitValue_isDigit {base : Nat} {c : Char} (hc : c.isDigit = true) (hb : c.toNat - 48 < base) :
    digitValue base c = some (c.toNat - 48) := by
  have hrange : '0' ≤ c ∧ c ≤ '9' := by simpa [Char.isDigit, Char.le_def] using hc
  have hzero : '0'.toNat = 48 := rfl
  simp only [digitValue, if_pos hrange, hzero, if_pos hb]

theorem isDigit_toNat_sub_lt {c : Char} (hc : c.isDigit = true) : c.toNat - 48 < 10 := by
  have hle : c.toNat ≤ 57 := (Char.isDigit_iff_toNat.mp hc).2
  omega

/-- Decimal digits write the number that the library reads from them. -/
theorem digitsValue_decimal {cs : List Char} (hcs : ∀ c ∈ cs, c.isDigit = true) (acc : Nat) :
    digitsValue 10 acc cs = some (Nat.ofDigitChars 10 cs acc) := by
  induction cs generalizing acc with
  | nil => rfl
  | cons c cs ih =>
    obtain ⟨hc, hcs⟩ := List.forall_mem_cons.mp hcs
    rw [digitsValue, digitValue_isDigit hc (isDigit_toNat_sub_lt hc), Nat.ofDigitChars_cons]
    exact ih hcs _

theorem isDigit_of_mem_decimal {n : Nat} {c : Char} (h : c ∈ Nat.toDigits 10 n) : c.isDigit = true :=
  Nat.isDigit_of_mem_toDigits (by decide) (by decide) h

/-- Digits without a leading `0x` are read as decimal (R72). -/
theorem readImm_decimal {cs : List Char} (hne : cs ≠ []) (hcs : ∀ c ∈ cs, c.isDigit = true)
    (h : Nat.ofDigitChars 10 cs 0 < 256) : readImm cs = some (BitVec.ofNat 8 (Nat.ofDigitChars 10 cs 0)) := by
  have hx : ∀ ds, cs ≠ '0' :: 'x' :: ds := by
    rintro ds rfl
    exact absurd (hcs 'x' (by simp)) (by decide)
  unfold readImm
  split
  · exact absurd rfl hne
  · exact absurd rfl (hx _)
  · exact absurd rfl (hx _)
  · simp only [digitsValue_decimal hcs, if_pos h]

/-- An immediate is read back from its decimal spelling (R63, R72). -/
theorem readImm_spellImm (v : Byte) : readImm (spellImm v) = some v := by
  have hvalue : Nat.ofDigitChars 10 (spellImm v) 0 = v.toNat := Nat.ofDigitChars_ten_toDigits
  have hlt : Nat.ofDigitChars 10 (spellImm v) 0 < 256 := by rw [hvalue]; exact v.isLt
  rw [readImm_decimal (cs := spellImm v) Nat.toDigits_ne_nil (fun _ => isDigit_of_mem_decimal) hlt, hvalue,
    BitVec.ofNat_toNat, BitVec.setWidth_eq]

/-- A register is read back from its name (R62, R72). -/
theorem readRegName_spellReg {r : Byte} (h : r.toNat ≤ 7) : readRegName (spellReg r) = some r := by
  have hdigit : digitValue 8 (Nat.digitChar r.toNat) = some r.toNat := by
    have hval := Nat.toNat_digitChar_sub_48_of_lt_ten (n := r.toNat) (by omega)
    have hisDigit : (Nat.digitChar r.toNat).isDigit = true := by
      rw [Nat.isDigit_digitChar, decide_eq_true_eq]; omega
    rw [digitValue_isDigit hisDigit (by omega), hval]
  rw [spellReg, Nat.toDigits_of_lt_base (by omega)]
  simp only [readRegName, hdigit, BitVec.ofNat_toNat, BitVec.setWidth_eq]

/-! ### Tokens -/

/-- A text the reader takes as one operand: it has no space and no comma (R72). -/
def IsToken (t : List Char) : Prop := ∀ c ∈ t, c ≠ ' ' ∧ c ≠ ','

theorem spellImm_isToken (v : Byte) : IsToken (spellImm v) := by
  intro c hc
  have hdigit := isDigit_of_mem_decimal hc
  constructor <;> rintro rfl <;> cases hdigit

theorem spellReg_isToken (r : Byte) : IsToken (spellReg r) :=
  List.forall_mem_cons.mpr ⟨by decide, spellImm_isToken r⟩

/-- A span ends where the first character that stops it stands, or at the end of the text. -/
theorem span_append_stop {p : Char → Bool} {t rest : List Char} (ht : ∀ c ∈ t, p c = true)
    (hrest : ∀ c ∈ rest.head?, p c = false) : (t ++ rest).span p = (t, rest) := by
  rw [List.span_eq_takeWhile_dropWhile, List.takeWhile_append_of_pos ht, List.dropWhile_append_of_pos ht]
  cases rest with
  | nil => simp
  | cons c cs => simp [hrest c rfl]

theorem nextToken_comma {t rest : List Char} (ht : IsToken t) : nextToken (t ++ ',' :: rest) = (t, ',' :: rest) :=
  span_append_stop (fun c hc => by simp [ht c hc]) (by simp)

theorem nextToken_all {t : List Char} (ht : IsToken t) : nextToken t = (t, []) := by
  have h := span_append_stop (p := fun c => !(c == ' ' || c == ',')) (t := t) (rest := [])
    (fun c hc => by simp [ht c hc]) (by simp)
  rwa [List.append_nil] at h

theorem skipSpaces_token {t : List Char} (ht : IsToken t) : skipSpaces t = t :=
  List.dropWhile_eq_self_iff.mpr fun hl => by simp [ht _ (List.getElem_mem hl)]

theorem skipSeparator_comma {t : List Char} (ht : IsToken t) : skipSeparator (',' :: t) = some t := by
  have hcomma : skipSpaces (',' :: t) = ',' :: t := rfl
  simp only [skipSeparator, hcomma, skipSpaces_token ht]

/-! ### Operands by format -/

/-- The operand bytes and the register operands that an instruction of a format has (R61, R62). -/
inductive OperandShape : Format → List Byte → List Byte → Prop
  | Z : OperandShape .Z [] []
  | R (r : Byte) : OperandShape .R [r] [r]
  | RI (r v : Byte) : OperandShape .RI [r, v] [r]
  | RR (a b : Byte) : OperandShape .RR [a, b] [a, b]

theorem operandShape (i : Instr) : OperandShape i.opcode.format i.operands i.regOperands := by
  cases i <;> constructor

/-- The spelling of the operands is nothing, or starts with a space. -/
theorem head?_spellOperands (f : Format) (ops : List Byte) : ∀ c ∈ (spellOperands f ops).head?, c = ' ' := by
  unfold spellOperands
  split <;> simp

/-- Operands whose registers exist are read back from their spelling, in encoding order (R61, R72). -/
theorem readOperands_spellOperands {f : Format} {ops regs : List Byte} (h : OperandShape f ops regs)
    (hregs : ∀ b ∈ regs, b.toNat ≤ 7) :
    readOperands f (skipSpaces (spellOperands f ops)) = some (ops[0]?.getD 0, ops[1]?.getD 0) := by
  cases h with
  | Z => rfl
  | R r =>
    have hr := readRegName_spellReg (hregs r (by simp))
    calc readOperands .R (skipSpaces (spellOperands .R [r]))
      _ = readOperands .R (spellReg r) := rfl
      _ = some (r, 0) := by simp [readOperands, nextToken_all (spellReg_isToken r), hr, skipSpaces]
  | RI r v =>
    have hr := readRegName_spellReg (hregs r (by simp))
    calc readOperands .RI (skipSpaces (spellOperands .RI [r, v]))
      _ = readOperands .RI (spellReg r ++ ',' :: spellImm v) := rfl
      _ = some (r, v) := by
        simp [readOperands, nextToken_comma (spellReg_isToken r), hr, skipSeparator_comma (spellImm_isToken v),
          nextToken_all (spellImm_isToken v), readImm_spellImm, skipSpaces]
  | RR a b =>
    have ha := readRegName_spellReg (hregs a (by simp))
    have hb := readRegName_spellReg (hregs b (by simp))
    calc readOperands .RR (skipSpaces (spellOperands .RR [a, b]))
      _ = readOperands .RR (spellReg a ++ ',' :: spellReg b) := rfl
      _ = some (a, b) := by
        simp [readOperands, nextToken_comma (spellReg_isToken a), ha, skipSeparator_comma (spellReg_isToken b),
          nextToken_all (spellReg_isToken b), hb, skipSpaces]

/-! ### Mnemonics -/

theorem mnemonic_no_space (c : Opcode) : (mnemonic c).all (fun d => !(d == ' ')) = true := by
  cases c <;> rfl

/-- Looking a mnemonic up among all rows gives its row. -/
theorem find?_mnemonic_allRows (c : Opcode) : (opcodesOf true).find? (fun d => mnemonic d == mnemonic c) = some c := by
  cases c <;> rfl

theorem mnemonic_injective : Function.Injective mnemonic := by
  intro c d h
  have hc := find?_mnemonic_allRows c
  rw [h, find?_mnemonic_allRows d] at hc
  exact (Option.some.inj hc).symm

theorem mem_opcodesOf {ext : Bool} {c : Opcode} : c ∈ opcodesOf ext ↔ (c.isExt = true → ext = true) := by
  rw [exists_iff_mem_opcodes, opcodesOf, List.mem_append]
  cases ext <;> simp

/-- A row that exists in the configuration is found by its mnemonic (R72, R140). -/
theorem find?_mnemonic {ext : Bool} {c : Opcode} (h : c ∈ opcodesOf ext) :
    (opcodesOf ext).find? (fun d => mnemonic d == mnemonic c) = some c := by
  obtain ⟨d, hd⟩ : ∃ d, (opcodesOf ext).find? (fun d => mnemonic d == mnemonic c) = some d :=
    Option.isSome_iff_exists.mp (List.find?_isSome.mpr ⟨c, h, beq_self_eq_true _⟩)
  rw [hd, mnemonic_injective (eq_of_beq (List.find?_some hd :))]

/-! ### The statement -/

/-- Settles O6: the spelling splits at its first space into the mnemonic, which names the row, and the operands. -/
theorem assemblyRoundTrip : Obligations.AssemblyRoundTrip := by
  intro ext i h
  obtain ⟨hregs, henabled⟩ := Bool.and_eq_true_iff.mp h
  have hsplit : (spell i).span (fun c => !(c == ' ')) =
      (mnemonic i.opcode, spellOperands i.opcode.format i.operands) :=
    span_append_stop (List.all_eq_true.mp (mnemonic_no_space _))
      (fun c hc => by simp [head?_spellOperands _ _ c hc])
  have hrow := find?_mnemonic (mem_opcodesOf.mpr (Instr.enabled_iff.mp henabled))
  have hoperands := readOperands_spellOperands (operandShape i) (by simpa [Instr.regsInRange] using hregs)
  have hbuild := i.build_operands_append []
  rw [List.append_nil] at hbuild
  simp only [readAsm, hsplit, hrow, hoperands, hbuild, Option.bind_eq_bind, Option.bind_some]

end Sys2Proof.Machine
end

section
/-! The text of a program image (30_encoding.md, R71): a byte in binary digits, a line, and the lines of a text. -/

namespace Sys2Proof.Machine

/-! ### A byte in binary digits -/

/-- The `n` low bits of a number as binary digits, most significant first. -/
def lowBits (v : Nat) : Nat → List Char
  | 0 => []
  | n + 1 => (if v.testBit n then '1' else '0') :: lowBits v n

theorem renderByte_eq_lowBits (b : Byte) : renderByte b = lowBits b.toNat 8 := rfl

theorem lowBits_length (v n : Nat) : (lowBits v n).length = n := by
  induction n with
  | zero => rfl
  | succ n ih => rw [lowBits, List.length_cons, ih]

theorem mem_lowBits {v n : Nat} {c : Char} (h : c ∈ lowBits v n) : c = '0' ∨ c = '1' := by
  induction n with
  | zero => cases h
  | succ n ih =>
    obtain rfl | h := List.mem_cons.mp h
    · split <;> simp
    · exact ih h

theorem binaryDigit_bit (p : Bool) : binaryDigit (if p then '1' else '0') = some p.toNat := by
  cases p <;> rfl

/-- Reading binary digits most significant first gives back the low bits they write, behind what was read before (R47). -/
theorem binaryValue_lowBits (v n acc : Nat) : binaryValue acc (lowBits v n) = some (acc * 2 ^ n + v % 2 ^ n) := by
  induction n generalizing acc with
  | zero => simp [lowBits, binaryValue, Nat.mod_one]
  | succ n ih =>
    simp only [lowBits, binaryValue, binaryDigit_bit, ih, Nat.toNat_testBit, Nat.mod_pow_succ, Option.some.injEq]
    ring

/-- A byte is read back from its eight binary digits (R47, R71). -/
theorem parseByte_renderByte (b : Byte) : parseByte (renderByte b) = some b := by
  rw [renderByte_eq_lowBits, parseByte, if_pos (lowBits_length _ _), binaryValue_lowBits, Nat.zero_mul, Nat.zero_add,
    Option.map_some, Nat.mod_eq_of_lt b.isLt, BitVec.ofNat_toNat, BitVec.setWidth_eq]

theorem mem_renderByte {b : Byte} {c : Char} (h : c ∈ renderByte b) : c = '0' ∨ c = '1' :=
  mem_lowBits (renderByte_eq_lowBits b ▸ h)

/-! ### A line -/

/-- The end of the leading token: white space or the comment's `#` (R71). -/
def endsToken (c : Char) : Bool := isLineSpace c || c == '#'

/-- A line that starts with a token is what the token is read as: its byte, or malformed (R71). -/
theorem parseLine_token {t rest : List Char} (hne : t ≠ []) (ht : ∀ c ∈ t, endsToken c = false)
    (hrest : ∀ c ∈ rest.head?, endsToken c = true) : parseLine (t ++ rest) = (parseByte t).map some := by
  obtain ⟨c, cs, rfl⟩ := List.exists_cons_of_ne_nil hne
  have hc : isLineSpace c = false ∧ c ≠ '#' := by simpa [endsToken] using ht c (by simp)
  have hdrop : (c :: cs ++ rest).dropWhile isLineSpace = c :: cs ++ rest := by simp [hc.1]
  have htake : (c :: cs ++ rest).takeWhile (fun d => !endsToken d) = c :: cs := by
    rw [List.takeWhile_append_of_pos fun d hd => by simp [ht d hd]]
    cases rest with
    | nil => simp
    | cons d ds => simp [hrest d rfl]
  calc parseLine (c :: cs ++ rest)
    _ = (parseByte ((c :: cs ++ rest).takeWhile fun d => !endsToken d)).map some := by
      simp only [parseLine, hdrop]
      exact if_neg hc.2
    _ = (parseByte (c :: cs)).map some := by rw [htake]

/-- The part of a line that is its comment: nothing, or `#` and the comment (R71). -/
def renderComment (comment : Option (List Char)) : List Char := (comment.map fun c => '#' :: c).getD []

theorem renderLine_some (b : Byte) (comment : Option (List Char)) :
    renderLine (some b) comment = renderByte b ++ renderComment comment := rfl

/-- A line gives its byte, or none, whatever its comment is (R71). -/
theorem parseLine_renderLine (byte : Option Byte) (comment : Option (List Char)) :
    parseLine (renderLine byte comment) = some byte := by
  cases byte with
  | none => cases comment <;> rfl
  | some b =>
    have hdigits : ∀ c ∈ renderByte b, endsToken c = false := fun c hc => by
      obtain rfl | rfl := mem_renderByte hc <;> rfl
    have hcomment : ∀ c ∈ (renderComment comment).head?, endsToken c = true := by
      cases comment <;> simp [renderComment, endsToken]
    rw [renderLine_some, parseLine_token (by rintro ⟨⟩) hdigits hcomment, parseByte_renderByte, Option.map_some]

theorem newline_not_mem_renderLine {byte : Option Byte} {comment : Option (List Char)}
    (h : ∀ c ∈ comment.getD [], c ≠ '\n') : '\n' ∉ renderLine byte comment := by
  have hbyte : '\n' ∉ (byte.map renderByte).getD [] := by
    cases byte with
    | none => simp
    | some b => exact fun hc => by rcases mem_renderByte hc with h | h <;> cases h
  have hcomment : '\n' ∉ renderComment comment := by
    cases comment with
    | none => simp [renderComment]
    | some cs => simpa [renderComment] using fun hc => h _ hc rfl
  exact List.not_mem_append hbyte hcomment

/-! ### The lines of a text -/

theorem splitLines_line {l : List Char} (hl : '\n' ∉ l) (rest : List Char) :
    splitLines (l ++ '\n' :: rest) = l :: splitLines rest := by
  induction l with
  | nil => rfl
  | cons c cs ih =>
    obtain ⟨hc, hcs⟩ : c ≠ '\n' ∧ '\n' ∉ cs := by simpa [eq_comm] using hl
    rw [List.cons_append, splitLines, if_neg hc, ih hcs]

/-- A text of lines that each end in a line feed splits into them and an empty last one (log entry 9). -/
theorem splitLines_lines {lines : List (List Char)} (h : ∀ l ∈ lines, '\n' ∉ l) :
    splitLines (lines.flatMap fun l => l ++ ['\n']) = lines ++ [[]] := by
  induction lines with
  | nil => rfl
  | cons l ls ih =>
    obtain ⟨hl, hls⟩ := List.forall_mem_cons.mp h
    rw [List.flatMap_cons, List.append_assoc, List.singleton_append, splitLines_line hl, ih hls, List.cons_append]

/-- Lines as R71 writes them, with an empty one after the last, give their bytes in file order. -/
theorem parseLines_renderLine (lines : List (Option Byte × Option (List Char))) (n : Nat) :
    parseLines n ((lines.map fun l => renderLine l.1 l.2) ++ [[]]) = .ok (lines.filterMap fun l => l.1) := by
  induction lines generalizing n with
  | nil => rfl
  | cons l ls ih =>
    rw [List.map_cons, List.cons_append, parseLines, parseLine_renderLine, ih, List.filterMap_cons]
    cases l.1 <;> rfl

/-! ### The statement -/

/-- Settles O7: the text splits into the lines it was written from, and each gives its byte or none. -/
theorem imageTextIsRead : Obligations.ImageTextIsRead := by
  intro lines hcomments
  have hlines : ∀ l ∈ lines.map fun l => renderLine l.1 l.2, '\n' ∉ l :=
    List.forall_mem_map.mpr fun l hl => newline_not_mem_renderLine (hcomments l hl)
  have hsplit := splitLines_lines hlines
  rw [List.flatMap_map] at hsplit
  rw [parseImage, hsplit, parseLines_renderLine]

end Sys2Proof.Machine
end

section
/-! The step (40_fetch_decode_execute.md): what the fetch gives at each PC and row, the check of the register operands, which
causes a step can halt with, what an effect does to the PC and the registers, and from these the statements of the family. -/

namespace Sys2Proof.Machine

/-! ### The fetch by PC and row (R82 to R85 item 1) -/

/-- The byte at `pc + k` past address 255 is ⊥ (R83). -/
theorem State.byteAt_out_of_range {s : State} {k : Nat} (h : 255 < s.pc.toNat + k) : s.byteAt k = none := by
  simp only [State.byteAt, if_neg (by omega : ¬ s.pc.toNat + k ≤ 255)]

/-- The bytes in memory of the three at the PC decode as the opcode with its two prefetched bytes, each present or ⊥. -/
theorem State.decode_fetchedBytes {s : State} (ext : Bool) (h : s.pc.toNat ≤ 255) :
    decode ext s.fetchedBytes = decodeFetched ext (s.mem.read s.pc.toNat) (s.byteAt 1) (s.byteAt 2) := by
  rcases (by omega : s.pc.toNat ≤ 253 ∨ s.pc.toNat = 254 ∨ s.pc.toNat = 255) with hpc | hpc | hpc
  · rw [State.byteAt_in_range (k := 1) (by omega), State.byteAt_in_range (k := 2) (by omega)]
    simp [State.fetchedBytes, decode, h, (by omega : s.pc.toNat + 1 ≤ 255), (by omega : s.pc.toNat + 2 ≤ 255)]
  · rw [State.byteAt_in_range (k := 1) (by omega), State.byteAt_out_of_range (k := 2) (by omega)]
    simp [State.fetchedBytes, decode, hpc]
  · rw [State.byteAt_out_of_range (k := 1) (by omega), State.byteAt_out_of_range (k := 2) (by omega)]
    simp [State.fetchedBytes, decode, hpc]

section
variable {s : State} (hpc : s.pc.toNat ≤ 255) (hpre : s.pc.toNat ≤ 253 ∨ s.cfg.prefetchOor = .ignore)
include hpc hpre

/-- An opcode byte without a row (R84). -/
theorem State.fetch_unknown (hop : decodeOpcode s.cfg.extAlu (s.mem.read s.pc.toNat) = none) :
    s.fetch = .error ⟨.unknownOpcode, (s.mem.read s.pc.toNat).toNat⟩ := by
  rw [State.fetch_decodes hpc hpre]
  simp [decodeFetched, hop, State.decodeFault]

/-- A row whose bytes all lie in memory. -/
theorem State.fetch_row_in_memory {c : Opcode} (hop : decodeOpcode s.cfg.extAlu (s.mem.read s.pc.toNat) = some c)
    (hlen : s.pc.toNat + c.len ≤ 256) :
    s.fetch = .ok (c.build ((s.byteAt 1).getD 0) ((s.byteAt 2).getD 0)) := by
  have present : ∀ k, k + 1 ≤ c.len → s.byteAt k ≠ none := fun k hk => by
    rw [State.byteAt_in_range (by omega)]
    exact Option.some_ne_none _
  rw [State.fetch_decodes hpc hpre, decodeFetched_row hop (present 1) (present 2)]

end

/-- A row that uses a byte past address 255: the first such byte stands at 256 (R85 item 1). -/
theorem State.fetch_row_past_memory {s : State} {c : Opcode} (hpc : s.pc.toNat ≤ 255)
    (hop : decodeOpcode s.cfg.extAlu (s.mem.read s.pc.toNat) = some c) (hlen : 256 < s.pc.toNat + c.len) :
    s.fetch = .error ⟨.outOfRangeAddress, 256⟩ := by
  have hle := c.len_pos
  rcases hx : s.fetch with f | i
  · rcases State.fetch_error hx with ⟨hhigh, -⟩ | ⟨-, -, rfl⟩ | ⟨-, hnone, -⟩
    · omega
    · rfl
    · rw [hop] at hnone
      cases hnone
  · obtain ⟨hfits, hbyte, hext, -, -⟩ := State.fetch_ok hx
    rw [decodeOpcode_eq_some.mpr ⟨hbyte, hext⟩] at hop
    cases hop
    have : i.len = i.opcode.len := rfl
    omega

/-- The row of a fetched instruction. -/
theorem State.fetch_ok_row {s : State} {i : Instr} (h : s.fetch = .ok i) :
    decodeOpcode s.cfg.extAlu (s.mem.read s.pc.toNat) = some i.opcode := by
  obtain ⟨-, hbyte, hext, -, -⟩ := State.fetch_ok h
  exact decodeOpcode_eq_some.mpr ⟨hbyte, hext⟩

/-- A fault of the fetch is the step's, with an info that HALT_INFO can hold (R88). -/
theorem step_fetch_fault {s : State} {c : HaltCause} {n : Int} (hrun : s.fsm = .running) (hf : s.fetch = .error ⟨c, n⟩)
    (h1 : -512 ≤ n) (h2 : n < 512) : ∃ t, step s = .next t ∧ s.FaultedFrom t c n :=
  ⟨_, step_fetch_error hrun hf, s.raiseFault_faultedFrom c h1 h2⟩

/-! ### The check of the register operands (R85 item 2) -/

theorem regOperand_of_find? {a c : Byte} (h : [a].find? (fun r => decide (7 < r.toNat)) = some c) :
    regOperand a = .error ⟨.outOfRangeRegister, c.toNat⟩ := by
  obtain rfl : c = a := List.mem_singleton.mp (List.mem_of_find?_eq_some h)
  exact regOperand_out_of_range (of_decide_eq_true (List.find?_some h :))

/-- Of two register operands the first above 7 is the fault. -/
theorem regOperands2_of_find? {a b c : Byte} (h : [a, b].find? (fun r => decide (7 < r.toNat)) = some c) :
    regOperands2 a b = .error ⟨.outOfRangeRegister, c.toNat⟩ := by
  by_cases ha : 7 < a.toNat
  · rw [List.find?_cons_of_pos (by simpa using ha)] at h
    cases h
    rw [regOperands2, regOperand_out_of_range ha]
    rfl
  · rw [List.find?_cons_of_neg (by simpa using ha)] at h
    rcases regOperand_cases a with ⟨r, -, hr⟩ | ⟨h7, -⟩
    · rw [regOperands2, hr, regOperand_of_find? h]
      rfl
    · exact absurd h7 ha

/-- A check that fails is the instruction's fault, whatever would have come after it (R89). -/
theorem State.complete_check {α : Type} (s : State) {e : Except EngineFault α} {f : EngineFault}
    (k : α → Except EngineFault State) (h : e = .error f) : s.complete (e >>= k) = .next (s.raiseFault f) := by
  rw [h]
  rfl

/-- The register check comes before every other check of an instruction. -/
theorem exec_register_fault {i : Instr} {b : Byte} (s : State)
    (h : i.regOperands.find? (fun r => decide (7 < r.toNat)) = some b) :
    exec i s = .next (s.raiseFault ⟨.outOfRangeRegister, b.toNat⟩) := by
  cases i with
  | hlt | ret => cases h
  | ldi a _ | prn a | push a | pop a | call a | not a => exact s.complete_check _ (regOperand_of_find? h)
  | add | mul | sub | div | mod | cmp | and | or | xor | shl | shr => exact s.complete_check _ (regOperands2_of_find? h)

/-! ### The causes a step can halt with -/

/-- The causes of R80 that a fault can have; HLT's is no fault, and UNSUPPORTED_ALU_OPERATION never arises (R112). -/
def HaltCause.IsFault (c : HaltCause) : Prop :=
  c = .unknownOpcode ∨ c = .outOfRangeAddress ∨ c = .outOfRangeRegister ∨ c = .divideByZero

theorem HaltCause.IsFault.ne_hlt {c : HaltCause} (h : c.IsFault) : c ≠ .hlt := by
  rintro rfl
  simp [HaltCause.IsFault] at h

theorem State.fetch_error_isFault {s : State} {f : EngineFault} (h : s.fetch = .error f) : f.cause.IsFault := by
  rcases State.fetch_error h with ⟨-, rfl⟩ | ⟨-, -, rfl⟩ | ⟨-, -, rfl⟩
  · exact .inr (.inl rfl)
  · exact .inr (.inl rfl)
  · exact .inl rfl

theorem Raises.isFault {s : State} {i : Instr} {f : EngineFault} (h : Raises s i f) : f.cause.IsFault := by
  cases h with
  | register => exact .inr (.inr (.inl rfl))
  | underflow | overflow | returnAddress => exact .inr (.inl rfl)
  | zeroDivisor => exact .inr (.inr (.inr rfl))

/-- A step faults with a cause that can arise, or has the effect of the fetched instruction. -/
theorem step_isFault_or_effect {s t : State} (h : step s = .next t) :
    (∃ f, f.cause.IsFault ∧ t = s.raiseFault f) ∨ ∃ i, s.fetch = .ok i ∧ Effect s i t := by
  obtain ⟨-, ⟨f, hf, ht⟩ | ⟨i, f, -, hr, ht⟩ | hexec⟩ := step_inv h
  · exact .inl ⟨f, State.fetch_error_isFault hf, ht⟩
  · exact .inl ⟨f, hr.isFault, ht⟩
  · exact .inr hexec

/-- A step that stays in RUNNING or halts with HLT raised no fault. -/
theorem step_effect {s t : State} (h : step s = .next t) (hend : t.fsm = .running ∨ t.haltCause = .hlt) :
    ∃ i, s.fetch = .ok i ∧ Effect s i t := by
  obtain ⟨f, hf, rfl⟩ | hexec := step_isFault_or_effect h
  · rcases hend with hrun | hhlt
    · cases hrun
    · exact absurd hhlt hf.ne_hlt
  · exact hexec

/-- What a fault leaves, with the info HALT_INFO then holds (R88). -/
theorem State.raiseFault_precise (s : State) (f : EngineFault) :
    s.FaultedFrom (s.raiseFault f) f.cause (s.raiseFault f).haltInfoInt :=
  ⟨rfl, rfl, rfl, rfl, rfl, fun _ _ => rfl, fun _ => rfl, rfl, rfl, rfl⟩

/-- HLT halts, and it alone: every other effect leaves the FSM state and the halt record (R80, R100). -/
theorem Effect.hlt_or_sameControl {s t : State} {i : Instr} (h : Effect s i t) :
    (i.opcode = .hlt ∧ t = (s.halt .hlt 0).advance 1) ∨ (i.opcode ≠ .hlt ∧ s.SameControl t) := by
  cases h with
  | hlt => exact .inl ⟨rfl, rfl⟩
  | alu i f ra rb hf =>
    have hne : i.opcode ≠ .hlt := fun hc => by
      rw [hc] at hf
      cases hf
    exact .inr ⟨hne, rfl, rfl, rfl, rfl, rfl⟩
  | _ => exact .inr ⟨nofun, rfl, rfl, rfl, rfl, rfl⟩

theorem Opcode.byte_eq_hlt {c : Opcode} : c.byte = 0x01 ↔ c = .hlt := by
  cases c <;> decide

/-! ### The PC and the registers after an effect -/

/-- The register operand of PUSH and CALL is read after the decrement (R122, R124). -/
theorem State.readReg_pushed (s : State) (sp v : Byte) (r : Reg) : (s.pushed sp v).readReg r = s.pushValue sp r := by
  simp [State.pushed, State.pushValue]

/-- CALL jumps to its operand as the step leaves it (R124). -/
theorem Effect.pc_call {s t : State} {i : Instr} (h : Effect s i t) (hop : i.opcode = .call) :
    ∃ r : Reg, i.operands[0]? = some (Reg.byte r) ∧ t.pc = (t.readReg r).setWidth 9 := by
  cases h with
  | call r sp ret =>
    refine ⟨r, rfl, ?_⟩
    rw [State.setPc_pc, State.readReg_setPc, State.readReg_pushed]
  | alu i f ra rb hf =>
    rw [hop] at hf
    cases hf
  | _ => cases hop

/-- RET jumps to the byte at the stack pointer (R125). -/
theorem Effect.pc_ret {s t : State} {i : Instr} (h : Effect s i t) (hop : i.opcode = .ret) :
    t.pc = s.top.setWidth 9 := by
  cases h with
  | ret sp => rfl
  | alu i f ra rb hf =>
    rw [hop] at hf
    cases hf
  | _ => cases hop

/-- A byte that becomes the PC keeps its value. -/
theorem setWidth_pc_toNat (b : Byte) : (b.setWidth 9 : PcWord).toNat = b.toNat :=
  BitVec.toNat_setWidth_of_le (by decide)

/-- The rows that write their first operand's register (R92). -/
def operandWriters : List Opcode := [.ldi, .pop, .add, .mul, .sub, .div, .mod, .and, .or, .xor, .not, .shl, .shr]

/-- The rows that write the stack pointer (R92). -/
def stackRows : List Opcode := [.push, .pop, .call, .ret]

theorem aluFn_mem_operandWriters {c : Opcode} {f : Byte → Byte → Byte} (h : aluFn c = some f) : c ∈ operandWriters := by
  revert h
  cases c <;> simp [aluFn, operandWriters]

theorem State.eq_of_writeReg_changes {s : State} {r q : Reg} {v : Byte} (h : (s.writeReg q v).readReg r ≠ s.readReg r) :
    r = q := by
  by_contra hne
  exact h (State.readReg_writeReg_other s v hne)

/-- A register that an effect changes is the first operand of a row that writes it, or the stack pointer of a stack row. -/
theorem Effect.reg_changes {s t : State} {i : Instr} (h : Effect s i t) {r : Reg} (hr : t.readReg r ≠ s.readReg r) :
    (i.opcode ∈ operandWriters ∧ i.operands[0]? = some (Reg.byte r)) ∨ (i.opcode ∈ stackRows ∧ r = SP) := by
  cases h with
  | hlt | prn | cmp => exact absurd rfl hr
  | ldi q v =>
    obtain rfl : r = q := State.eq_of_writeReg_changes hr
    exact .inl ⟨by simp [operandWriters, Instr.opcode], rfl⟩
  | not q =>
    obtain rfl : r = q := State.eq_of_writeReg_changes hr
    exact .inl ⟨by simp [operandWriters, Instr.opcode], rfl⟩
  | alu i f ra rb hf ho =>
    obtain rfl : r = ra := State.eq_of_writeReg_changes hr
    exact .inl ⟨aluFn_mem_operandWriters hf, by rw [ho]; rfl⟩
  | push | call | ret => exact .inr ⟨by simp [stackRows, Instr.opcode], State.eq_of_writeReg_changes hr⟩
  | pop q sp =>
    by_cases hsp : r = SP
    · exact .inr ⟨by simp [stackRows, Instr.opcode], hsp⟩
    · rw [State.readReg_advance, State.readReg_writeReg_other _ _ hsp] at hr
      obtain rfl : r = q := State.eq_of_writeReg_changes hr
      exact .inl ⟨by simp [operandWriters, Instr.opcode], rfl⟩

/-! ### Steps and runs -/

/-- RUNNING is never stuck: a fetch that faults gives the faulted state, and `exec` always answers a next state. -/
theorem step_running {s : State} (hrun : s.fsm = .running) : ∃ t, step s = .next t := by
  cases hx : s.fetch with
  | error f => exact ⟨_, step_fetch_error hrun hx⟩
  | ok i =>
    rw [step_fetch_ok hrun hx]
    exact exec_next i s

theorem State.run_succ {s t : State} (h : step s = .next t) (k : Nat) : s.run (k + 1) = t.run k := by
  rw [State.run, h]

/-- A run from HALTED stays where it is (R90). -/
theorem State.run_halted {s : State} (h : s.fsm = .halted) (k : Nat) : s.run k = s := by
  cases k with
  | zero => rfl
  | succ k => rw [State.run, step_halted h]

/-- A run of `k + j` steps is one of `k` steps and then one of `j`. -/
theorem State.run_add (s : State) (k j : Nat) : s.run (k + j) = (s.run k).run j := by
  induction k generalizing s with
  | zero => rw [Nat.zero_add, State.run]
  | succ k ih =>
    cases hf : s.fsm with
    | halted => rw [State.run_halted hf, State.run_halted hf, State.run_halted hf]
    | running =>
      obtain ⟨t, ht⟩ := step_running hf
      rw [Nat.add_right_comm, State.run_succ ht, State.run_succ ht, ih]

/-! ### The statements -/

/-- Settles O8: the bytes of the statement decode as the fetch decodes them. -/
theorem stepExecutesDecodedInstruction : Obligations.StepExecutesDecodedInstruction := by
  intro s i hrun hpc hpre hdec
  rw [State.decode_fetchedBytes _ hpc] at hdec
  have hfetch : s.fetch = .ok i := by rw [State.fetch_decodes hpc hpre, hdec]
  exact step_fetch_ok hrun hfetch

/-- Settles O9: the opcode fetch faults with the PC, which HALT_INFO can hold. -/
theorem fetchBeyondMemoryFaults : Obligations.FetchBeyondMemoryFaults := by
  intro s hrun hpc
  have hlt := s.pc.isLt
  exact step_fetch_fault hrun (State.fetch_pc_high (by omega)) (by omega) (by omega)

/-- Settles O11: the fetch faults with the opcode byte. -/
theorem unknownOpcodeFaults : Obligations.UnknownOpcodeFaults := by
  intro s hrun hpc hpre hop
  have hlt := (s.mem.read s.pc.toNat).isLt
  exact step_fetch_fault hrun (State.fetch_unknown hpc hpre hop) (by omega) (by omega)

/-- Settles O10: under `fault` a prefetch faults before decoding. Under `ignore` a row that lies in memory there has one
operand byte at most, and a longer one lacks the byte at 256. -/
theorem prefetchAtTheTopOfMemory : Obligations.PrefetchAtTheTopOfMemory := by
  intro s hrun hlow hpc
  constructor
  · exact fun hfault => step_fetch_fault hrun (State.fetch_prefetch_fault hlow hpc hfault) (by decide) (by decide)
  intro hignore c hop
  constructor
  · intro hlen
    refine ⟨_, Opcode.build_opcode .., ?_, step_fetch_ok hrun (State.fetch_row_in_memory hpc (.inr hignore) hop hlen)⟩
    have hpos := c.len_pos
    rw [Opcode.build_operands]
    rcases (by omega : c.len = 1 ∨ c.len = 2) with hone | htwo
    · simp [hone]
    · simp [htwo, State.byteAt_in_range (s := s) (k := 1) (by omega)]
  · exact fun hlen => step_fetch_fault hrun (State.fetch_row_past_memory hpc hop hlen) (by decide) (by decide)

/-- Settles O12: a missing byte faults in the fetch, and the register check is the first of the instruction's own; the
faults of its other checks have other causes. -/
theorem operandChecks : Obligations.OperandChecks := by
  refine ⟨fun i => by cases i <;> rfl, ?_, ?_, ?_⟩
  · intro s c hrun hpc hignore hop hlen
    exact step_fetch_fault hrun (State.fetch_row_past_memory hpc hop hlen) (by decide) (by decide)
  · intro s i b h
    have hlt := b.isLt
    exact ⟨_, exec_register_fault s h, s.raiseFault_faultedFrom _ (by omega) (by omega)⟩
  · intro s t i hregs h hcause
    obtain he | ⟨f, rfl, hr⟩ := exec_inv h
    · obtain rfl | hc := he.sameControl
      · cases hcause
      · exact hc.haltCause.symm.trans hcause
    · cases hr with
      | register b hb h7 => exact absurd h7 (Nat.not_lt.mpr (hregs b hb))
      | _ => cases hcause

/-- Settles O14: HALTED answers its fault, and RUNNING always has a next state. -/
theorem stepExistsExactlyWhenRunning : Obligations.StepExistsExactlyWhenRunning :=
  fun _ => ⟨step_halted, step_running⟩

/-- Settles O15: a fault has one of the four causes, and of the effects only HLT's leaves RUNNING. -/
theorem fsmTransitions : Obligations.FsmTransitions := by
  intro s t h
  have hrun := (step_inv h).1
  refine ⟨hrun, ?_⟩
  obtain ⟨f, hf, rfl⟩ | ⟨i, hi, he⟩ := step_isFault_or_effect h
  · exact .inr (.inr ⟨rfl, hf, rfl⟩)
  obtain ⟨-, hbyte, -, -, -⟩ := State.fetch_ok hi
  rw [hbyte, Opcode.byte_eq_hlt.ne, Opcode.byte_eq_hlt]
  obtain ⟨hop, rfl⟩ | ⟨hop, hc⟩ := he.hlt_or_sameControl
  · exact .inr (.inl ⟨rfl, rfl, hop, rfl, rfl⟩)
  · exact .inl ⟨hc.fsm.trans hrun, hc, hop⟩

/-- Settles O16: a step that halts otherwise than by HLT took a fault. -/
theorem faultsArePrecise : Obligations.FaultsArePrecise := by
  intro s t h hhalted hcause
  obtain ⟨f, -, rfl⟩ | ⟨i, -, he⟩ := step_isFault_or_effect h
  · exact s.raiseFault_precise f
  · obtain rfl | hc := he.sameControl
    · exact absurd rfl hcause
    · rw [hc.fsm, (step_inv h).1] at hhalted
      cases hhalted

/-- Settles O37: the step had the effect of an instruction that lies in memory. -/
theorem pcUpdate : Obligations.PcUpdate := by
  intro s t h hend
  obtain ⟨i, hi, he⟩ := step_effect h hend
  obtain ⟨hlen, -, -, hoperand, -⟩ := State.fetch_ok hi
  refine ⟨i.opcode, State.fetch_ok_row hi, fun hcall hret => ?_, fun hcall => ?_, fun hret => ?_⟩
  · obtain hpc | ⟨hjump, -⟩ := he.pc
    · have hadd : t.pc.toNat = s.pc.toNat + i.len := by
        rw [hpc]
        exact State.advance_pc_toNat (by omega)
      exact ⟨hadd, hadd ▸ hlen⟩
    · exact absurd hjump (not_or.mpr ⟨hcall, hret⟩)
  · obtain ⟨r, hr, hpc⟩ := he.pc_call hcall
    exact ⟨r, hoperand 0 _ hr, by rw [hpc, setWidth_pc_toNat]⟩
  · rw [he.pc_ret hret, setWidth_pc_toNat, State.top]

/-- Settles O41: a fault changes no register, and the fetched operand byte names the one an effect changes. -/
theorem registersWritten : Obligations.RegistersWritten := by
  intro s t r h hr
  obtain ⟨f, -, rfl⟩ | ⟨i, hi, he⟩ := step_isFault_or_effect h
  · exact absurd rfl hr
  obtain ⟨-, -, -, hoperand, -⟩ := State.fetch_ok hi
  exact ⟨i.opcode, State.fetch_ok_row hi, (he.reg_changes hr).imp_left fun ⟨hmem, hop⟩ => ⟨hmem, hoperand 0 _ hop⟩⟩

/-- Settles O46: HALTED takes no step, so the steps after it are none. -/
theorem haltedIsFinal : Obligations.HaltedIsFinal := by
  refine ⟨fun s t h => ?_, fun s k j h => ?_⟩
  · rw [step_halted h]
    nofun
  · rw [State.run_add, State.run_halted h]

end Sys2Proof.Machine
end

section
/-! HLT, LDI and PRN (41_control_and_output.md): the frame of an instruction that writes one register, the fetch of an HLT,
and from these the statements of the family. -/

namespace Sys2Proof.Machine

/-- Writing one register and advancing the PC changes nothing else (R86, R87). -/
theorem State.writesOnlyReg_writeReg_advance (s : State) (r : Reg) (v : Byte) {len : Nat} (h : s.pc.toNat + len < 512) :
    s.WritesOnlyReg ((s.writeReg r v).advance len) r len where
  pc := State.advance_pc_toNat (s := s.writeReg r v) h
  regs := fun _ hq => State.readReg_writeReg_other s v (List.ne_of_not_mem_cons hq)
  mem := fun _ => rfl
  fl := rfl
  out := rfl
  control := ⟨rfl, rfl, rfl, rfl, rfl⟩

/-- An HLT's one byte is all it needs of memory: it is fetched wherever both prefetches pass (R82 to R85). -/
theorem State.fetch_hlt {s : State} (hpc : s.pc.toNat ≤ 255) (hpre : s.pc.toNat ≤ 253 ∨ s.cfg.prefetchOor = .ignore)
    (hop : s.mem.read s.pc.toNat = 0x01) : s.fetch = .ok .hlt :=
  State.fetch_row_in_memory hpc hpre (c := .hlt) (decodeOpcode_eq_some.mpr ⟨hop, nofun⟩)
    (show s.pc.toNat + 1 ≤ 256 by omega)

/-! ### The statements -/

/-- Settles O21: HLT leaves the record that fits it. At the top of memory the prefetch faults first, or yields no byte,
which HLT does not use. -/
theorem hltHalts : Obligations.HltHalts := by
  refine ⟨rfl, fun s hpc => ?_, fun s hrun hop hlow hpc => ⟨fun hfault => ?_, fun hignore => ?_⟩⟩
  · obtain ⟨hinfo, hnext⟩ := State.hlt_recordFits hpc
    exact ⟨_, exec_hlt s, rfl, rfl, rfl, hinfo, hnext, fun _ _ => rfl, fun _ => rfl, rfl, rfl, rfl⟩
  · exact step_fetch_fault hrun (State.fetch_prefetch_fault hlow hpc hfault) (by decide) (by decide)
  · have hstep : step s = exec .hlt s := step_fetch_ok hrun (State.fetch_hlt hpc (.inr hignore) hop)
    obtain ⟨-, hnext⟩ := State.hlt_recordFits (s := s) (by omega)
    exact ⟨_, hstep.trans (exec_hlt s), rfl, rfl, hnext⟩

/-- Settles O22: LDI writes its register and advances the PC by its three bytes. -/
theorem ldiLoadsTheImmediate : Obligations.LdiLoadsTheImmediate :=
  fun r v s _ => ⟨rfl, _, exec_ldi r v s, State.readReg_writeReg_same s r v,
    s.writesOnlyReg_writeReg_advance r v (by omega)⟩

/-- Settles O23: PRN appends to the trace, and the host's rendering of the longer trace has one line more. -/
theorem prnEmitsTheRegister : Obligations.PrnEmitsTheRegister := by
  intro r s hpc
  have hnext : ((s.emit (s.readReg r)).advance 2).pc.toNat = s.pc.toNat + 2 :=
    State.advance_pc_toNat (s := s.emit _) (show s.pc.toNat + 2 < 512 by omega)
  have hprinted : ((s.emit (s.readReg r)).advance 2).printed = s.printed ++ [Nat.toDigits 10 (s.readReg r).toNat] :=
    List.map_append
  exact ⟨rfl, _, exec_prn r s, rfl, hprinted, hnext, fun _ _ => rfl, fun _ => rfl, rfl, ⟨rfl, rfl, rfl, rfl, rfl⟩⟩

end Sys2Proof.Machine
end

section
/-! The ALU (42_alu.md): the value `trunc8` keeps, what the ALU's register-to-register form leaves, and from these the
statements of the family. -/

namespace Sys2Proof.Machine

@[simp] theorem trunc8_toNat (v : Nat) : (trunc8 v).toNat = v % 256 := BitVec.toNat_ofNat v 8

theorem aluAdd_toNat (va vb : Byte) : (aluAdd va vb).toNat = (va.toNat + vb.toNat) % 256 := trunc8_toNat _

theorem aluMul_toNat (va vb : Byte) : (aluMul va vb).toNat = va.toNat * vb.toNat % 256 := trunc8_toNat _

/-- The ALU's form writes the function of both old values to the first register, which may also be the second, and
nothing else (R110, R113). -/
theorem aluApply_writesOnlyReg (f : Byte → Byte → Byte) (ra rb : Reg) {s : State} (hpc : s.pc.toNat ≤ 256) :
    ∃ t, aluApply f (Reg.byte ra) (Reg.byte rb) s = .next t ∧
      t.readReg ra = f (s.readReg ra) (s.readReg rb) ∧ s.WritesOnlyReg t ra 3 :=
  ⟨_, aluApply_bytes f ra rb s, State.readReg_writeReg_same s ra _, s.writesOnlyReg_writeReg_advance ra _ (by omega)⟩

/-! ### The statements -/

/-- Settles O18: a step that halts does so by HLT or with one of the four causes of a fault. -/
theorem unsupportedAluOperationNeverArises : Obligations.UnsupportedAluOperationNeverArises := by
  intro s t h hhalted hcause
  obtain ⟨-, ⟨hrun, -⟩ | ⟨-, hhlt, -⟩ | ⟨-, hfault, -⟩⟩ := fsmTransitions s t h
  · rw [hhalted] at hrun
    cases hrun
  · rw [hcause] at hhlt
    cases hhlt
  · simp [hcause] at hfault

/-- Settles O24: ADD and MUL are the ALU's form with functions that keep the low byte. -/
theorem addMulKeepTheLowByte : Obligations.AddMulKeepTheLowByte := by
  intro ra rb s hpc
  obtain ⟨t, hadd, hsum, hframe⟩ := aluApply_writesOnlyReg aluAdd ra rb hpc
  obtain ⟨u, hmul, hprod, uframe⟩ := aluApply_writesOnlyReg aluMul ra rb hpc
  refine ⟨⟨rfl, t, hadd, ?_, hframe⟩, ⟨rfl, u, hmul, ?_, uframe⟩⟩
  · rw [hsum, aluAdd_toNat]
  · rw [hprod, aluMul_toNat]

end Sys2Proof.Machine
end

section
/-! The stack and subroutines (43_stack_and_subroutine.md): what the two pushing instructions leave, the states POP and RET
leave, and from these the statements of the family. -/

namespace Sys2Proof.Machine

/-! ### The stack pointer's range by its value (R121) -/

theorem decSp_of_toNat_zero {sp : Byte} (h : sp.toNat = 0) : decSp sp = .error ⟨.outOfRangeAddress, -1⟩ :=
  decSp_zero (BitVec.eq_of_toNat_eq h)

theorem decSp_of_toNat_ne_zero {sp : Byte} (h : sp.toNat ≠ 0) : decSp sp = .ok (sp - 1) :=
  decSp_pos fun h0 => h (by simp [h0])

/-! ### What a push leaves (R122, R124) -/

/-- `t` is `s` with `v` pushed: the stack pointer is one lower and `v` stands there. The PC may differ, and nothing else. -/
structure State.Pushes (s t : State) (v : Byte) : Prop where
  sp : (t.readReg SP).toNat + 1 = (s.readReg SP).toNat
  regs : s.SameRegsBut t [SP]
  top : t.top = v
  mem : s.SameMemoryBut t (t.readReg SP).toNat
  fl : t.fl = s.fl
  out : t.out = s.out
  control : s.SameControl t

/-- The decremented stack pointer is the address a push stores at (R44). -/
theorem State.Pushes.address {s t : State} {v : Byte} (h : s.Pushes t v) :
    (s.readReg SP).toNat - 1 = (t.readReg SP).toNat := by
  have := h.sp
  omega

theorem State.pushes_pushed_setPc {s : State} (hs : s.mem.wf) {sp : Byte} (hsp : decSp (s.readReg SP) = .ok sp)
    (v : Byte) (p : PcWord) : s.Pushes ((s.pushed sp v).setPc p) v := by
  have hnew : ((s.pushed sp v).setPc p).readReg SP = sp := State.readReg_writeReg_same s SP sp
  refine ⟨?_, fun q hq => ?_, ?_, ?_, rfl, rfl, ⟨rfl, rfl, rfl, rfl, rfl⟩⟩
  · rw [hnew, (decSp_ok hsp).2]
  · exact State.readReg_writeReg_other s sp (List.ne_of_not_mem_cons hq)
  · rw [State.top, hnew]
    exact Memory.read_write_same hs sp.toNat v
  · rw [hnew]
    exact fun a ha => Memory.read_write_other s.mem v ha

/-- PUSH where the stack pointer is not 0: the operand is read after the decrement. -/
theorem exec_push_pushes (r : Reg) {s : State} (hs : s.mem.wf) (hsp : (s.readReg SP).toNat ≠ 0) :
    ∃ t, exec (.push (Reg.byte r)) s = .next t ∧ s.Pushes t (s.pushValue (t.readReg SP) r) ∧
      t.pc = (s.advance 2).pc := by
  have hdec := decSp_of_toNat_ne_zero hsp
  refine ⟨_, exec_push r hdec, ?_, rfl⟩
  rw [State.readReg_advance, State.readReg_pushed]
  exact State.pushes_pushed_setPc hs hdec _ _

/-- CALL where both checks pass: the target is read after the decrement. -/
theorem exec_call_pushes (r : Reg) {s : State} (hs : s.mem.wf) (hsp : (s.readReg SP).toNat ≠ 0)
    (hpc : s.pc.toNat + 2 ≤ 255) :
    ∃ t ret, exec (.call (Reg.byte r)) s = .next t ∧ s.Pushes t ret ∧ ret.toNat = s.pc.toNat + 2 ∧
      t.pc.toNat = (t.readReg r).toNat := by
  have hdec := decSp_of_toNat_ne_zero hsp
  have hret := State.returnAddress_fits hpc
  refine ⟨_, _, exec_call r hdec hret, State.pushes_pushed_setPc hs hdec _ _, State.returnAddress_ok hret, ?_⟩
  rw [State.setPc_pc, setWidth_pc_toNat, State.readReg_setPc, State.readReg_pushed]

/-- The value PUSH leaves on top of the stack: R7's is the decremented stack pointer. -/
theorem State.Pushes.top_toNat {s t : State} {r : Reg} (h : s.Pushes t (s.pushValue (t.readReg SP) r)) :
    t.top.toNat = if r = SP then (s.readReg SP).toNat - 1 else (s.readReg r).toNat := by
  rw [h.top, State.pushValue, apply_ite BitVec.toNat, h.address]

/-- A push leaves room above the stack pointer, and the increment undoes its decrement. -/
theorem State.Pushes.incSp {s t : State} {v : Byte} (h : s.Pushes t v) : incSp (t.readReg SP) = .ok (s.readReg SP) := by
  have hlt := (s.readReg SP).isLt
  have hsp := h.sp
  have hne : (t.readReg SP).toNat ≠ 255 := by omega
  rw [incSp_below hne, BitVec.eq_of_toNat_eq ((incSp_toNat hne).trans hsp)]

/-- POP of the register that was pushed also increments the decremented stack pointer: for R7 that is the popped byte. -/
theorem State.Pushes.popBase {s t : State} {r : Reg} (h : s.Pushes t (s.pushValue (t.readReg SP) r)) :
    t.popBase r = t.readReg SP := by
  rw [State.popBase, h.top, State.pushValue]
  split <;> rfl

/-- POP's first write gives back the register that was pushed, where it is not R7. -/
theorem State.Pushes.regs_writeReg_top {s t : State} {r : Reg} (h : s.Pushes t (s.pushValue (t.readReg SP) r)) :
    s.SameRegsBut (t.writeReg r t.top) [SP] := by
  intro q hq
  by_cases hqr : q = r
  · subst hqr
    rw [State.readReg_writeReg_same, h.top, State.pushValue, if_neg (List.ne_of_not_mem_cons hq)]
  · rw [State.readReg_writeReg_other _ _ hqr, h.regs q hq]

/-- Where the stack pointer alone differs, writing the old one makes every register as it was. -/
theorem State.SameRegsBut.restoreSp {s t : State} (h : s.SameRegsBut t [SP]) :
    s.SameRegsBut (t.writeReg SP (s.readReg SP)) [] := by
  intro q _
  by_cases hq : q = SP
  · rw [hq, State.readReg_writeReg_same]
  · rw [State.readReg_writeReg_other _ _ hq, h q (by simpa using hq)]

/-! ### The statements -/

/-- Settles O31: PUSH is a push of its operand, and at stack pointer 0 the decrement faults. -/
theorem pushStoresBelowTheStackPointer : Obligations.PushStoresBelowTheStackPointer := by
  intro r s hs hpc
  refine ⟨rfl, fun h0 => ?_, fun h0 => ?_⟩
  · exact ⟨_, exec_push_fault r (decSp_of_toNat_zero h0), s.raiseFault_faultedFrom _ (by decide) (by decide)⟩
  · obtain ⟨t, hexec, h, hnext⟩ := exec_push_pushes r hs h0
    rw [h.address]
    exact ⟨t, hexec, rfl, h.regs, h.top, h.mem, hnext ▸ State.advance_pc_toNat (by omega), h.fl, h.out, h.control⟩

/-- Settles O32: `popBase` is the stack pointer that POP increments, the popped byte where the operand is R7. -/
theorem popLoadsThenIncrements : Obligations.PopLoadsThenIncrements := by
  intro r s hpc
  refine ⟨rfl, fun v base hv hbase => ?_⟩
  obtain rfl : v = s.top := hv
  obtain rfl : base = s.popBase r := hbase
  refine ⟨fun htop => ?_, fun hbelow => ?_⟩
  · exact ⟨_, exec_pop_fault r (incSp_top htop), s.raiseFault_faultedFrom _ (by decide) (by decide)⟩
  refine ⟨_, exec_pop r (incSp_below hbelow), ?_, fun hr => ?_, fun q hq => ?_, fun _ => rfl,
    State.advance_pc_toNat (s := (s.writeReg r _).writeReg SP _) (show s.pc.toNat + 2 < 512 by omega), rfl, rfl,
    ⟨rfl, rfl, rfl, rfl, rfl⟩⟩
  · rw [State.readReg_advance, State.readReg_writeReg_same, incSp_toNat hbelow]
  · rw [State.readReg_advance, State.readReg_writeReg_other _ _ hr, State.readReg_writeReg_same]
  · obtain ⟨hqr, hqsp⟩ : q ≠ r ∧ q ≠ SP := by simpa using hq
    rw [State.readReg_advance, State.readReg_writeReg_other _ _ hqsp, State.readReg_writeReg_other _ _ hqr]

/-- Settles O33: CALL is a push of the return address. Under `fault` no instruction above 253 is fetched, a CALL or not. -/
theorem callPushesTheReturnAddress : Obligations.CallPushesTheReturnAddress := by
  refine ⟨fun s t hfault _ h hrun => ?_, fun r s hs hpc => ⟨rfl, fun h0 => ?_, fun h0 hhigh => ?_, fun h0 hlow => ?_⟩⟩
  · obtain ⟨i, hi, -⟩ := step_effect h (.inl hrun)
    obtain ⟨-, -, -, -, hlow | hignore⟩ := State.fetch_ok hi
    · exact hlow
    · rw [hfault] at hignore
      cases hignore
  · exact ⟨_, exec_call_empty r (decSp_of_toNat_zero h0), s.raiseFault_faultedFrom _ (by decide) (by decide)⟩
  · exact ⟨_, exec_call_high r (decSp_of_toNat_ne_zero h0) (State.returnAddress_too_high hhigh),
      s.raiseFault_faultedFrom _ (by omega) (by omega)⟩
  · obtain ⟨t, ret, hexec, h, hret, hnext⟩ := exec_call_pushes r hs h0 hlow
    rw [h.address]
    exact ⟨t, hexec, rfl, h.regs, (congrArg BitVec.toNat h.top).trans hret, h.mem, hnext, h.fl, h.out, h.control⟩

/-- Settles O34: RET takes the top of the stack into the PC, and at stack pointer 255 the increment faults. -/
theorem retPopsThePc : Obligations.RetPopsThePc := by
  intro s
  refine ⟨rfl, fun htop => ?_, fun hbelow => ?_⟩
  · exact ⟨_, exec_ret_fault (incSp_top htop), s.raiseFault_faultedFrom _ (by decide) (by decide)⟩
  refine ⟨_, exec_ret (incSp_below hbelow), ?_, fun q hq => ?_, fun _ => rfl, setWidth_pc_toNat _, rfl, rfl,
    ⟨rfl, rfl, rfl, rfl, rfl⟩⟩
  · rw [State.readReg_setPc, State.readReg_writeReg_same, incSp_toNat hbelow]
  · exact State.readReg_writeReg_other s _ (List.ne_of_not_mem_cons hq)

/-- Settles O35: the increment undoes the push's decrement, and the popped byte is the pushed one. -/
theorem stackRoundTrips : Obligations.StackRoundTrips := by
  constructor
  · intro r s hs hsp
    obtain ⟨t, hpush, h, -⟩ := exec_push_pushes r hs (by omega)
    have hinc : incSp (t.popBase r) = .ok (s.readReg SP) := h.popBase ▸ h.incSp
    refine ⟨t, _, hpush, exec_pop r hinc, h.regs_writeReg_top.restoreSp, h.control, ?_, ?_⟩
    · exact ⟨h.control.fsm, h.control.haltCause, h.control.haltPc, h.control.haltInfo, h.control.cfg⟩
    · have htop := h.top_toNat
      rw [State.top, ← h.address] at htop
      exact htop
  · intro r s u hs hsp hpc
    obtain ⟨t, ret, hcall, h, hret, -⟩ := exec_call_pushes r hs (by omega) (by omega)
    refine ⟨t, hcall, h.control, fun husp hutop => ?_⟩
    have hinc : incSp (u.readReg SP) = .ok (s.readReg SP) := husp ▸ h.incSp
    have htop : u.top = ret := hutop.trans h.top
    refine ⟨_, exec_ret hinc, ?_, fun q hq => ?_, State.readReg_writeReg_same u SP _, ⟨rfl, rfl, rfl, rfl, rfl⟩⟩
    · rw [State.setPc_pc, setWidth_pc_toNat, htop, hret]
    · exact State.readReg_writeReg_other u _ (List.ne_of_not_mem_cons hq)

/-- Settles O36: RET pops the pushed value into the PC and increments the decremented stack pointer. -/
theorem pushRetIsAnIndirectJump : Obligations.PushRetIsAnIndirectJump := by
  intro r s hs hsp
  obtain ⟨t, hpush, h, -⟩ := exec_push_pushes r hs (by omega)
  refine ⟨t, _, hpush, exec_ret h.incSp, h.regs.restoreSp, ?_⟩
  rw [State.setPc_pc, setWidth_pc_toNat, h.top_toNat]

end Sys2Proof.Machine
end

section
/-! The ALU extension (44_alu_extension.md): the value each function of the extension gives, the flags CMP packs into FL, that
no instruction reads FL, and from these the statements of the family. -/

namespace Sys2Proof.Machine

/-! ### The values (R142 to R144, R149 to R151) -/

theorem aluSub_toNat (va vb : Byte) : ((aluSub va vb).toNat : Int) = ((va.toNat : Int) - vb.toNat) % 256 := by
  rw [aluSub, BitVec.toNat_ofInt]
  exact Int.toNat_of_nonneg (Int.emod_nonneg _ (by decide))

/-- The quotient never overflows (R143). -/
theorem aluDiv_toNat (va vb : Byte) : (aluDiv va vb).toNat = va.toNat / vb.toNat := by
  have hle := Nat.div_le_self va.toNat vb.toNat
  have hlt := va.isLt
  rw [aluDiv, trunc8_toNat, Nat.mod_eq_of_lt (by omega)]

theorem aluMod_toNat (va vb : Byte) : (aluMod va vb).toNat = va.toNat % vb.toNat := by
  have hle := Nat.mod_le va.toNat vb.toNat
  have hlt := va.isLt
  rw [aluMod, trunc8_toNat, Nat.mod_eq_of_lt (by omega)]

theorem aluNot_toNat (va : Byte) : (aluNot va).toNat = 255 - va.toNat := BitVec.toNat_not

theorem aluShl_toNat (va vb : Byte) : (aluShl va vb).toNat = va.toNat * 2 ^ vb.toNat % 256 := by
  rw [aluShl, trunc8_toNat, Nat.shiftLeft_eq]

theorem aluShr_toNat (va vb : Byte) : (aluShr va vb).toNat = va.toNat / 2 ^ vb.toNat := by
  have hle := Nat.div_le_self va.toNat (2 ^ vb.toNat)
  have hlt := va.isLt
  rw [aluShr, trunc8_toNat, Nat.shiftRight_eq_div_pow, Nat.mod_eq_of_lt (by omega)]

/-! ### The divide form (R143, R144) -/

/-- DIV and MOD with a divisor other than 0 have the frame of the ALU's form. -/
theorem aluDivide_writesOnlyReg (f : Byte → Byte → Byte) (ra rb : Reg) {s : State} (hpc : s.pc.toNat ≤ 256)
    (h : (s.readReg rb).toNat ≠ 0) :
    ∃ t, aluDivide f (Reg.byte ra) (Reg.byte rb) s = .next t ∧
      t.readReg ra = f (s.readReg ra) (s.readReg rb) ∧ s.WritesOnlyReg t ra 3 := by
  have hne : s.readReg rb ≠ 0 := fun h0 => h (by simp [h0])
  rw [aluDivide_nonzero f ra rb hne, ← aluApply_bytes]
  exact aluApply_writesOnlyReg f ra rb hpc

theorem aluDivide_faults (f : Byte → Byte → Byte) (ra rb : Reg) {s : State} (h : (s.readReg rb).toNat = 0) :
    ∃ t, aluDivide f (Reg.byte ra) (Reg.byte rb) s = .next t ∧ s.FaultedFrom t .divideByZero rb.val :=
  ⟨_, aluDivide_zero f ra rb (BitVec.eq_of_toNat_eq h), s.raiseFault_faultedFrom _ (by omega) (by omega)⟩

/-! ### The flags of CMP (R34, R145) -/

/-- FL with the three flags in their places, `0b00000LGE` (R34). -/
def packFlags (l g e : Bool) : Byte := BitVec.setWidth 8 (flagBit l ++ flagBit g ++ flagBit e)

theorem cmpFlags_eq_packFlags (va vb : Byte) :
    cmpFlags va vb = packFlags (va.toNat < vb.toNat) (vb.toNat < va.toNat) (va.toNat = vb.toNat) := rfl

/-- Each flag is read back from its place. -/
theorem packFlags_getLsbD (l g e : Bool) :
    (packFlags l g e).getLsbD 2 = l ∧ (packFlags l g e).getLsbD 1 = g ∧ (packFlags l g e).getLsbD 0 = e := by
  revert l g e
  decide

theorem packFlags_toNat (l g e : Bool) : (packFlags l g e).toNat = 4 * l.toNat + 2 * g.toNat + e.toNat := by
  revert l g e
  decide

/-! ### No instruction reads FL (R141)

`s.setFl v` is the other state of the two-state law: it differs from `s` in FL only. -/

/-- Where `o` answers a next state, `o'` answers the same one, or the same but for FL, which each then keeps. -/
def FlBlind (s : State) (v : Byte) (o o' : Host.Outcome State Fault Refusal) : Prop :=
  ∀ t, o = .next t → o' = .next t ∨ (t.fl = s.fl ∧ o' = .next (t.setFl v))

section
variable {s : State} {v : Byte}

/-- An answer that keeps FL. -/
theorem FlBlind.keeps {t : State} (h : t.fl = s.fl) : FlBlind s v (.next t) (.next (t.setFl v)) := by
  rintro _ ⟨⟩
  exact .inr ⟨h, rfl⟩

/-- An answer that overwrites FL whatever it was. -/
theorem FlBlind.overwrites {t : State} : FlBlind s v (.next t) (.next t) :=
  fun _ => .inl

/-- A check that answers the same in both states: its fault keeps FL, and otherwise the rest decides. -/
theorem FlBlind.check {α : Type} {e : Except EngineFault α} {k k' : α → Except EngineFault State}
    (h : ∀ x, FlBlind s v (s.complete (k x)) ((s.setFl v).complete (k' x))) :
    FlBlind s v (s.complete (e >>= k)) ((s.setFl v).complete (e >>= k')) := by
  cases e with
  | error f => exact .keeps rfl
  | ok x => exact h x

/-- A store of PUSH or CALL, which changes memory only (R42). -/
theorem FlBlind.store {u : State} {a : Nat} {b : Byte} {k : State → Except EngineFault State}
    (h : FlBlind s v (s.complete (k (u.setMem (u.mem.write a b))))
      ((s.setFl v).complete (k ((u.setMem (u.mem.write a b)).setFl v)))) :
    FlBlind s v (s.complete (u.memWrite a b >>= k)) ((s.setFl v).complete ((u.setFl v).memWrite a b >>= k)) := by
  by_cases ha : a ≤ 255
  · rw [State.memWrite_in_range b ha, State.memWrite_in_range b ha]
    exact h
  · rw [State.memWrite_out_of_range b (by omega), State.memWrite_out_of_range b (by omega)]
    exact .keeps rfl

theorem aluApply_flBlind (f : Byte → Byte → Byte) (a b : Byte) :
    FlBlind s v (aluApply f a b s) (aluApply f a b (s.setFl v)) :=
  .check fun _ => .keeps rfl

theorem aluDivide_flBlind (f : Byte → Byte → Byte) (a b : Byte) :
    FlBlind s v (aluDivide f a b s) (aluDivide f a b (s.setFl v)) :=
  .check fun _ => .check fun _ => .keeps rfl

/-- CMP overwrites FL and every other instruction keeps it; none reads it (R141). -/
theorem exec_flBlind (i : Instr) : FlBlind s v (exec i s) (exec i (s.setFl v)) := by
  cases i with
  | cmp a b => exact .check fun _ => .overwrites
  | hlt => exact .keeps rfl
  | ldi | prn | not => exact .check fun _ => .keeps rfl
  | push a => exact .check fun _ => .check fun _ => .store (.keeps rfl)
  | pop a => exact .check fun _ => .check fun _ => .check fun _ => .keeps rfl
  | call a => exact .check fun _ => .check fun _ => .check fun _ => .store (.keeps rfl)
  | ret => exact .check fun _ => .check fun _ => .keeps rfl
  | div | mod => exact aluDivide_flBlind _ _ _
  | add | mul | sub | and | or | xor | shl | shr => exact aluApply_flBlind _ _ _

/-- The fetch does not read FL either (R82 to R85), so the whole step does not. -/
theorem step_flBlind (hrun : s.fsm = .running) : FlBlind s v (step s) (step (s.setFl v)) := by
  have hfetch : (s.setFl v).fetch = s.fetch := rfl
  cases hx : s.fetch with
  | error f =>
    rw [step_fetch_error hrun hx, step_fetch_error (s := s.setFl v) hrun (hfetch.trans hx)]
    exact .keeps rfl
  | ok i =>
    rw [step_fetch_ok hrun hx, step_fetch_ok (s := s.setFl v) hrun (hfetch.trans hx)]
    exact exec_flBlind i

end

/-! ### The rows of the extension (R140) -/

/-- With `EXT_ALU = true` the byte of every row decodes to it. -/
theorem decodeOpcode_byte (c : Opcode) : decodeOpcode true c.byte = some c :=
  decodeOpcode_eq_some.mpr ⟨rfl, fun _ => rfl⟩

/-- Without the option a row of the extension is unknown: its byte is no other row's. -/
theorem decodeOpcode_ext_off {c : Opcode} (hext : c.isExt = true) : decodeOpcode false c.byte = none := by
  refine Option.eq_none_iff_forall_ne_some.mpr fun d hd => ?_
  obtain ⟨hbyte, hoff⟩ := decodeOpcode_eq_some.mp hd
  have hcd : c = d := by
    have hc := decodeOpcode_byte c
    rw [hbyte, decodeOpcode_byte d] at hc
    exact (Option.some.inj hc).symm
  cases hoff (hcd ▸ hext)

/-! ### The statements -/

/-- Settles O13: without the option an extension opcode is an unknown one, and no step changes the configuration. -/
theorem extensionNeedsTheOption : Obligations.ExtensionNeedsTheOption := by
  refine ⟨fun s c hext hoff hrun hpc hpre hop => ?_, decodeOpcode_byte, fun _ _ => step_cfg⟩
  rw [← hop]
  exact unknownOpcodeFaults s hrun hpc hpre (by rw [hoff, hop, decodeOpcode_ext_off hext])

/-- Settles O26: DIV and MOD are the divide form with functions whose results fit in a byte. -/
theorem divModAndZeroDivisor : Obligations.DivModAndZeroDivisor := by
  intro ra rb s hpc
  refine ⟨rfl, rfl, fun h0 => ⟨aluDivide_faults aluDiv ra rb h0, aluDivide_faults aluMod ra rb h0⟩, fun h0 => ?_⟩
  obtain ⟨t, hdiv, hquot, hframe⟩ := aluDivide_writesOnlyReg aluDiv ra rb hpc h0
  obtain ⟨u, hmod, hrem, uframe⟩ := aluDivide_writesOnlyReg aluMod ra rb hpc h0
  refine ⟨⟨t, hdiv, ?_, hframe⟩, ⟨u, hmod, ?_, uframe⟩⟩
  · rw [hquot, aluDiv_toNat]
  · rw [hrem, aluMod_toNat]

/-- Settles O39: of the effects only CMP's writes FL, and neither the fetch nor an instruction reads it. -/
theorem flIsWrittenByCmpAndReadByNone : Obligations.FlIsWrittenByCmpAndReadByNone := by
  intro s t h
  refine ⟨fun hne => ?_, fun v => step_flBlind (step_inv h).1 t h⟩
  obtain ⟨f, -, rfl⟩ | ⟨i, hi, he⟩ := step_isFault_or_effect h
  · exact absurd rfl hne
  obtain hfl | ⟨ra, rb, rfl, -⟩ := he.fl
  · exact absurd hfl hne
  · obtain ⟨-, hop, hext, -, -⟩ := State.fetch_ok hi
    exact ⟨hop, hext rfl⟩

/-- Settles O25: SUB is the ALU's form with the difference modulo 256. -/
theorem subIsModulo256 : Obligations.SubIsModulo256 := by
  intro ra rb s hpc
  obtain ⟨t, hsub, hdiff, hframe⟩ := aluApply_writesOnlyReg aluSub ra rb hpc
  exact ⟨rfl, t, hsub, by rw [hdiff, aluSub_toNat], hframe⟩

/-- Settles O27: FL holds the three comparisons in their places, and CMP writes nothing else but the PC. -/
theorem cmpWritesTheFlags : Obligations.CmpWritesTheFlags := by
  intro ra rb s hpc
  refine ⟨rfl, _, exec_cmp ra rb s, ?_⟩
  rw [cmpFlags_eq_packFlags]
  simp only [State.flagL, State.flagG, State.flagE, State.advance_fl, State.setFl_fl, packFlags_getLsbD,
    decide_eq_true_eq, true_and]
  exact ⟨packFlags_toNat _ _ _, State.advance_pc_toNat (s := s.setFl _) (show s.pc.toNat + 3 < 512 by omega),
    fun _ _ => rfl, fun _ => rfl, rfl, ⟨rfl, rfl, rfl, rfl, rfl⟩⟩

/-- Settles O28: AND, OR and XOR are the ALU's form with the library's bitwise functions. -/
theorem andOrXorBitByBit : Obligations.AndOrXorBitByBit := by
  intro ra rb s hpc
  obtain ⟨t, hand, tval, tframe⟩ := aluApply_writesOnlyReg aluAnd ra rb hpc
  obtain ⟨u, hor, uval, uframe⟩ := aluApply_writesOnlyReg aluOr ra rb hpc
  obtain ⟨w, hxor, wval, wframe⟩ := aluApply_writesOnlyReg aluXor ra rb hpc
  refine ⟨⟨rfl, t, hand, fun k => ?_, tframe⟩, ⟨rfl, u, hor, fun k => ?_, uframe⟩, ⟨rfl, w, hxor, fun k => ?_, wframe⟩⟩
  · rw [tval, aluAnd, BitVec.getLsbD_and]
  · rw [uval, aluOr, BitVec.getLsbD_or]
  · rw [wval, aluXor, BitVec.getLsbD_xor]

/-- Settles O29: NOT writes its register and advances the PC by its two bytes. -/
theorem notComplements : Obligations.NotComplements := by
  intro r s hpc
  refine ⟨rfl, _, exec_not r s, ?_, s.writesOnlyReg_writeReg_advance r _ (by omega)⟩
  rw [State.readReg_advance, State.readReg_writeReg_same, aluNot_toNat]

/-- Settles O30: a shift on naturals by the whole count is a product or a quotient by its power of 2. -/
theorem shiftsByTheWholeCount : Obligations.ShiftsByTheWholeCount := by
  intro ra rb s hpc
  obtain ⟨t, hshl, hprod, hframe⟩ := aluApply_writesOnlyReg aluShl ra rb hpc
  obtain ⟨u, hshr, hquot, uframe⟩ := aluApply_writesOnlyReg aluShr ra rb hpc
  refine ⟨⟨rfl, t, hshl, ?_, hframe⟩, ⟨rfl, u, hshr, ?_, uframe⟩⟩
  · rw [hprod, aluShl_toNat]
  · rw [hquot, aluShr_toNat]

end Sys2Proof.Machine
end

section
/-! The exceptions (60_exceptions.md): what HALT_INFO means for each cause, and from this the statement of the family. -/

namespace Sys2Proof

/-- A register operand is one of the two operand bytes (R61, R62). -/
theorem Instr.mem_regOperands {i : Instr} {b : Byte} (h : b ∈ i.regOperands) :
    i.operands[0]? = some b ∨ i.operands[1]? = some b := by
  cases i with
  | hlt | ret => cases h
  | ldi | prn | push | pop | call | not => exact .inl (congrArg some (List.mem_singleton.mp h).symm)
  | add | mul | sub | div | mod | cmp | and | or | xor | shl | shr =>
    simpa [Instr.regOperands, Instr.operands, eq_comm] using h

end Sys2Proof

namespace Sys2Proof.Machine

/-! ### What a fault that fits its row says -/

theorem FaultFits.info_range {ext : Bool} {f : EngineFault} (h : FaultFits ext f) : -1 ≤ f.info ∧ f.info ≤ 256 := by
  cases h with
  | unknownOpcode b | register b =>
    have hb := b.isLt
    constructor <;> dsimp only <;> omega
  | belowMemory | aboveMemory => decide
  | zeroDivisor r =>
    have hr := r.isLt
    constructor <;> dsimp only <;> omega

theorem FaultFits.address {ext : Bool} {n : Int} (h : FaultFits ext ⟨.outOfRangeAddress, n⟩) : n = -1 ∨ n = 256 := by
  cases h with
  | belowMemory => exact .inl rfl
  | aboveMemory => exact .inr rfl

theorem FaultFits.register_range {ext : Bool} {n : Int} (h : FaultFits ext ⟨.outOfRangeRegister, n⟩) :
    8 ≤ n ∧ n ≤ 255 := by
  cases h with
  | register b h7 =>
    have hb := b.isLt
    omega

theorem FaultFits.extension {ext : Bool} {n : Int} (h : FaultFits ext ⟨.divideByZero, n⟩) : ext = true := by
  cases h with
  | zeroDivisor r hext => exact hext

/-! ### What HALT_INFO means -/

/-- What the info of a cause says of the state `s` that the step halted in: the table of R170 with R32, and HLT's 0 (R100).
No step halts with another cause. -/
def State.InfoMeans (s : State) : HaltCause → Int → Prop
  | .hlt, n => n = 0
  | .unknownOpcode, n =>
      n = (s.mem.read s.pc.toNat).toNat ∧ decodeOpcode s.cfg.extAlu (s.mem.read s.pc.toNat) = none
  | .outOfRangeAddress, n => n = -1 ∨ n = 256
  | .outOfRangeRegister, n => 8 ≤ n ∧ n ≤ 255 ∧
      (n = (s.mem.read (s.pc.toNat + 1)).toNat ∨ n = (s.mem.read (s.pc.toNat + 2)).toNat)
  | .divideByZero, n => s.cfg.extAlu = true ∧ (s.mem.read s.pc.toNat = 0xA3 ∨ s.mem.read s.pc.toNat = 0xA4) ∧
      ∃ r : Reg, n = r.val ∧ s.readReg r = 0 ∧ s.mem.read (s.pc.toNat + 2) = Reg.byte r
  | .none, _ | .unsupportedAluOperation, _ => False

/-- A fault of phases 1 to 3 (R82 to R85 item 1). -/
theorem State.fetch_error_infoMeans {s : State} {f : EngineFault} (hpc : s.pc.toNat ≤ 256) (h : s.fetch = .error f) :
    s.InfoMeans f.cause f.info := by
  have hfits := State.fetch_error_fits hpc h
  rcases State.fetch_error h with ⟨-, rfl⟩ | ⟨-, -, rfl⟩ | ⟨-, hnone, rfl⟩
  · exact hfits.address
  · exact hfits.address
  · exact ⟨rfl, hnone⟩

/-- A fault of a fetched instruction: the operand bytes it was decoded from stand at `pc + 1` and `pc + 2`. -/
theorem Raises.infoMeans {s : State} {i : Instr} {f : EngineFault} (hi : s.fetch = .ok i) (h : Raises s i f) :
    s.InfoMeans f.cause f.info := by
  obtain ⟨-, hbyte, -, hoperand, -⟩ := State.fetch_ok hi
  have hfits := h.fits hi
  cases h with
  | register b hb =>
    have hwhere : b = s.mem.read (s.pc.toNat + 1) ∨ b = s.mem.read (s.pc.toNat + 2) :=
      (Instr.mem_regOperands hb).imp (fun h0 => (hoperand 0 b h0).symm) (fun h1 => (hoperand 1 b h1).symm)
    obtain ⟨hlow, hhigh⟩ := hfits.register_range
    exact ⟨hlow, hhigh, hwhere.imp (fun h => by rw [← h]) (fun h => by rw [← h])⟩
  | underflow | overflow | returnAddress => exact hfits.address
  | zeroDivisor hop rb ho h0 =>
    have hdivide : s.mem.read s.pc.toNat = 0xA3 ∨ s.mem.read s.pc.toNat = 0xA4 :=
      hop.imp (fun h => by rw [hbyte, h]; rfl) (fun h => by rw [hbyte, h]; rfl)
    exact ⟨hfits.extension, hdivide, rb, rfl, h0, hoperand 1 _ ho⟩

/-- HALT_INFO holds the info of a fault that fits its row, so the record means what the fault does. -/
theorem State.raiseFault_infoMeans {s : State} {f : EngineFault} (hfits : FaultFits s.cfg.extAlu f)
    (h : s.InfoMeans f.cause f.info) : s.InfoMeans (s.raiseFault f).haltCause (s.raiseFault f).haltInfoInt := by
  obtain ⟨hlow, hhigh⟩ := hfits.info_range
  have hinfo : (s.raiseFault f).haltInfoInt = f.info := s.raiseFault_haltInfoInt f.cause (by omega) (by omega)
  rw [hinfo]
  exact h

/-- The record of a step that halts means what R170 says of its cause. -/
theorem step_infoMeans {s t : State} (h : step s = .next t) (hpc : s.pc.toNat ≤ 256) (hhalted : t.fsm = .halted) :
    s.InfoMeans t.haltCause t.haltInfoInt := by
  obtain ⟨hrun, ⟨f, hf, rfl⟩ | ⟨i, f, hi, hr, rfl⟩ | ⟨i, -, he⟩⟩ := step_inv h
  · exact State.raiseFault_infoMeans (State.fetch_error_fits hpc hf) (State.fetch_error_infoMeans hpc hf)
  · exact State.raiseFault_infoMeans (hr.fits hi) (hr.infoMeans hi)
  · obtain rfl | hc := he.sameControl
    · exact (rfl : ((s.halt .hlt 0).advance 1).haltInfoInt = 0)
    · rw [hc.fsm, hrun] at hhalted
      cases hhalted

/-! ### The statement -/

/-- Settles O17: each clause is what the record means for its cause. -/
theorem haltInfoByCause : Obligations.HaltInfoByCause := by
  intro s t h hpc hhalted
  have means : ∀ c, t.haltCause = c → s.InfoMeans c t.haltInfoInt :=
    fun _ hcause => hcause ▸ step_infoMeans h hpc hhalted
  exact ⟨means .unknownOpcode, means .outOfRangeAddress, means .outOfRangeRegister, means .divideByZero⟩

end Sys2Proof.Machine
end

section
/-! Reset and load (70_reset_and_hazards.md): what an accepted launch holds in memory, which images and texts are refused, and
from these the statement of the family. -/

namespace Sys2Proof.Machine

/-! ### The load of an image (R191, R193) -/

theorem launch_of_length_le (cfg : Config) (memInit : Nat → Byte) {image : List Byte} (h : image.length ≤ 256) :
    launch cfg memInit image = .ok ((State.resetWith cfg).setMem ((Memory.ofFun memInit).writeBytes 0 image)) :=
  if_neg (by omega)

theorem launch_of_length_gt (cfg : Config) (memInit : Nat → Byte) {image : List Byte} (h : 256 < image.length) :
    launch cfg memInit image = .error (.imageTooLong image.length) :=
  if_pos h

/-- A cell of the launch state holds the image's byte at its address, and past the image what `MEM_INIT` gives. -/
theorem launch_read {cfg : Config} {memInit : Nat → Byte} {image : List Byte} {s : State}
    (h : launch cfg memInit image = .ok s) {a : Nat} (ha : a < 256) : s.mem.read a = image.getD a (memInit a) := by
  obtain ⟨hlen, rfl⟩ := launch_ok h
  rw [State.setMem_mem, Memory.read_writeBytes (Memory.wf_ofFun memInit) (by omega), if_pos (Nat.zero_le a), Nat.sub_zero,
    Memory.read_ofFun memInit ha]

/-! ### The load of a text (R71, R193) -/

theorem launchText_of_parseImage_ok (cfg : Config) (memInit : Nat → Byte) {text : List Char} {image : List Byte}
    (h : parseImage text = .ok image) : launchText cfg memInit text = launch cfg memInit image := by
  rw [launchText, h]
  rfl

theorem launchText_of_parseImage_error (cfg : Config) (memInit : Nat → Byte) {text : List Char} {e : LoadError}
    (h : parseImage text = .error e) : launchText cfg memInit text = .error e := by
  rw [launchText, h]
  rfl

/-- Lines that each end in a line feed are the first lines of a text, whatever follows them. -/
theorem splitLines_lines_append {lines : List (List Char)} (h : ∀ l ∈ lines, '\n' ∉ l) (rest : List Char) :
    splitLines ((lines.flatMap fun l => l ++ ['\n']) ++ rest) = lines ++ splitLines rest := by
  induction lines with
  | nil => rfl
  | cons l ls ih =>
    obtain ⟨hl, hls⟩ := List.forall_mem_cons.mp h
    rw [List.flatMap_cons, List.append_assoc, List.append_assoc, List.singleton_append, splitLines_line hl, ih hls,
      List.cons_append]

/-- A text that holds no line feed is one line. -/
theorem splitLines_single {l : List Char} (hl : '\n' ∉ l) : splitLines l = [l] := by
  induction l with
  | nil => rfl
  | cons c cs ih =>
    obtain ⟨hc, hcs⟩ : c ≠ '\n' ∧ '\n' ∉ cs := by simpa [eq_comm] using hl
    rw [splitLines, if_neg hc, ih hcs]

/-- A line that the text ends after, or a line feed, is the text's first line. -/
theorem splitLines_first {l : List Char} (hl : '\n' ∉ l) (after : List (List Char)) :
    ∃ ls, splitLines (l ++ after.flatMap fun l => '\n' :: l) = l :: ls := by
  cases after with
  | nil => exact ⟨[], by rw [List.flatMap_nil, List.append_nil, splitLines_single hl]⟩
  | cons m ms => exact ⟨_, by rw [List.flatMap_cons, List.cons_append, splitLines_line hl]⟩

/-- The first malformed line refuses the load, under its own number, whatever comes after it (log entries 9 and 15). -/
theorem parseLines_first_malformed {before : List (List Char)} {line : List Char} (hbefore : ∀ l ∈ before, parseLine l ≠ none)
    (hline : parseLine line = none) (rest : List (List Char)) (n : Nat) :
    parseLines n (before ++ line :: rest) = .error (.malformedLine (n + before.length)) := by
  induction before generalizing n with
  | nil =>
    rw [List.nil_append, parseLines, hline]
    rfl
  | cons l ls ih =>
    obtain ⟨hl, hls⟩ := List.forall_mem_cons.mp hbefore
    obtain ⟨byte, hbyte⟩ := Option.ne_none_iff_exists'.mp hl
    rw [List.cons_append, parseLines, hbyte, ih hls, List.length_cons, Nat.add_right_comm, Nat.add_assoc]
    rfl

/-- A text is refused for its first malformed line. -/
theorem parseImage_first_malformed {before : List (List Char)} {line : List Char}
    (hnl : ∀ l ∈ line :: before, '\n' ∉ l) (hbefore : ∀ l ∈ before, parseLine l ≠ none) (hline : parseLine line = none)
    (after : List (List Char)) :
    parseImage ((before.flatMap fun l => l ++ ['\n']) ++ line ++ (after.flatMap fun l => '\n' :: l)) =
      .error (.malformedLine before.length) := by
  obtain ⟨hnlLine, hnlBefore⟩ := List.forall_mem_cons.mp hnl
  obtain ⟨rest, hrest⟩ := splitLines_first hnlLine after
  rw [parseImage, List.append_assoc, splitLines_lines_append hnlBefore, hrest, parseLines_first_malformed hbefore hline,
    Nat.zero_add]

/-! ### The statement -/

/-- Settles O48: an image loads over `MEM_INIT` cell by cell or is refused for its length, and a text is refused for its first
malformed line or launches as the bytes it is read as (O7). -/
theorem launchLoadsTheImage : Obligations.LaunchLoadsTheImage := by
  refine ⟨fun cfg memInit image hlen => ?_, fun cfg memInit image hlen => launch_of_length_gt cfg memInit hlen,
    fun cfg memInit before after line hnl hbefore hline => ?_, fun cfg memInit lines hcomments => ?_⟩
  · have hlaunch := launch_of_length_le cfg memInit hlen
    refine ⟨_, hlaunch, launch_inv hlaunch, rfl, fun a v hv => ?_, fun a hlow hhigh => ?_⟩
    · obtain ⟨ha, -⟩ := List.getElem?_eq_some_iff.mp hv
      rw [launch_read hlaunch (by omega), List.getD_eq_getElem?_getD, hv, Option.getD_some]
    · rw [launch_read hlaunch hhigh, List.getD_eq_default _ _ hlow]
  · exact launchText_of_parseImage_error cfg memInit
      (parseImage_first_malformed (fun l hl hc => hnl l hl _ hc rfl) hbefore hline after)
  · exact launchText_of_parseImage_ok cfg memInit (imageTextIsRead lines hcomments)

end Sys2Proof.Machine
end
